-- ==== Sys2Proof/Word.lean ====
section
/-! DEFINITION. The two number types of the machine (00_scope R10, 10_state R30): Word is an integer in [0, 999] and
Addr an integer in [0, 99]. No binary form is architectural (R10, 20_memory R53), so neither is a bit vector. -/

namespace Sys2Proof

/-- A three-digit decimal word (00_scope R10: the set of integers [0, 999]). -/
abbrev Word := Fin 1000

/-- A two-digit decimal cell address (00_scope R10: the set of integers [0, 99]). -/
abbrev Addr := Fin 100

/-- Overflow folding of a value: reduction mod 1000 before it is stored (10_state R30). -/
def Word.ofNat (n : Nat) : Word := Fin.ofNat 1000 n

/-- Overflow folding of an address: reduction mod 100 before it is stored (10_state R30). -/
def Addr.ofNat (n : Nat) : Addr := Fin.ofNat 100 n

end Sys2Proof
end

