-- ==== Sys2Proof/Config.lean ====
section
/-! DEFINITION. The implementation parameters of 00_scope R9 that the model reads, each at the value the spec fixes or
defaults it to. RADIX, WORD_MAX, MEM_CELLS and ADDR_MAX are the types Word and Addr; ORG_OVERLAP is `overwrite` and is the
shape of pass 2; STEP_LIMIT, INPUT_SOURCE and OUTPUT_SINK are arguments of the run loop or the queues of State.
The spec leaves no value open (93_implementation_defined), so no constant here is free (log 20). -/

namespace Sys2Proof

/-- The opcode-9 sub-code of INP (44_io R186: default 01). -/
def Config.inpCode : Addr := 1

/-- The opcode-9 sub-code of OUT (44_io R186: default 02). -/
def Config.outCode : Addr := 2

/-- P_THRESHOLD (00_scope R9): the P-flag is true exactly when ACC is at least this. -/
def Config.pThreshold : Nat := 500

/-- The entry address after `load` (00_scope R9, 70_reset_and_hazards R322). -/
def Config.entry : Addr := 0

/-- COMMENT_TOKEN (00_scope R9, 30_encoding R83(1)). -/
def Config.commentToken : Char := '#'

end Sys2Proof
end

