-- ==== Sys2Proof/Syntax.lean ====
section
/-! DEFINITION. The instructions: one constructor per row of spec/opcode_table.json (30_encoding R74, R75), the two HLT
rows and the two INVALID9 rows each with a constructor of their own (log 11). The reserved and the invalid words are
instructions too, because decode is total and executing them has an effect (30_encoding R71, R75). -/

namespace Sys2Proof

/-- The closed enumeration decode produces (30_encoding R75). The argument is the operand field `a` (R70). -/
inductive Instr where
  /-- word 000: HLT, the form the assembler emits (45_control R200) -/
  | hlt
  /-- words 001 to 099: HLT, operand ignored (45_control R200, 30_encoding R78) -/
  | hltOperand (a : Addr)
  /-- words 100 to 199 (41_arithmetic R123) -/
  | add (a : Addr)
  /-- words 200 to 299 (41_arithmetic R124) -/
  | sub (a : Addr)
  /-- words 300 to 399 (42_load_store R140) -/
  | sta (a : Addr)
  /-- words 400 to 499: reserved (45_control R202) -/
  | reserved4 (a : Addr)
  /-- words 500 to 599 (42_load_store R141) -/
  | lda (a : Addr)
  /-- words 600 to 699 (43_branch R160) -/
  | bra (a : Addr)
  /-- words 700 to 799 (43_branch R161) -/
  | brp (a : Addr)
  /-- words 800 to 899 (43_branch R162) -/
  | brz (a : Addr)
  /-- word 900: invalid (45_control R203) -/
  | invalid900
  /-- word 901 (44_io R180) -/
  | inp
  /-- word 902 (44_io R181) -/
  | out
  /-- words 903 to 999: invalid (45_control R203) -/
  | invalid9 (a : Addr)
  deriving DecidableEq, Repr

end Sys2Proof
end

