-- ==== Sys2Proof/Decode.lean ====
section
/-! DEFINITION. Decode and encode (30_encoding R70 to R80): the decimal digit fields of a word, the total decoder of R75,
the encoder from the same table, and the host's numbering of a word by the opcode table. Every word decodes (R71), so the
decoder refuses none: the reserved and invalid words decode to instructions of their own. -/

namespace Sys2Proof

/-- Field `op`, digit 2: `CIR div 100` (30_encoding R70, R71). -/
def opcodeOf (w : Word) : Fin 10 := Fin.ofNat 10 (w.val / 100)

/-- Field `a`, digits 1 to 0: `CIR mod 100` (30_encoding R70, R71). -/
def operandOf (w : Word) : Addr := Addr.ofNat (w.val % 100)

/-- Opcode 0: HLT for any operand (30_encoding R75, R78), by the table's two rows. -/
def decodeHlt (a : Addr) : Instr := if a = 0 then .hlt else .hltOperand a

/-- Opcode 9: implicit-address dispatch on the sub-code (30_encoding R75, 44_io R186). -/
def decodeNine (a : Addr) : Instr :=
  if a = Config.inpCode then .inp
  else if a = Config.outCode then .out
  else if a = 0 then .invalid900
  else .invalid9 a

/-- The total decoder (30_encoding R71, R75). -/
def decode (w : Word) : Instr :=
  match opcodeOf w with
  | 0 => decodeHlt (operandOf w)
  | 1 => .add (operandOf w)
  | 2 => .sub (operandOf w)
  | 3 => .sta (operandOf w)
  | 4 => .reserved4 (operandOf w)
  | 5 => .lda (operandOf w)
  | 6 => .bra (operandOf w)
  | 7 => .brp (operandOf w)
  | 8 => .brz (operandOf w)
  | 9 => decodeNine (operandOf w)

/-- The word of fields `op` and `a`: `w = op * 100 + a` (30_encoding R70). -/
def wordOf (op : Nat) (a : Addr) : Word := Word.ofNat (op * 100 + a.val)

/-- The word of an instruction (30_encoding R70, R74). -/
def encode : Instr → Word
  | .hlt => wordOf 0 0
  | .hltOperand a => wordOf 0 a
  | .add a => wordOf 1 a
  | .sub a => wordOf 2 a
  | .sta a => wordOf 3 a
  | .reserved4 a => wordOf 4 a
  | .lda a => wordOf 5 a
  | .bra a => wordOf 6 a
  | .brp a => wordOf 7 a
  | .brz a => wordOf 8 a
  | .invalid900 => wordOf 9 0
  | .inp => wordOf 9 Config.inpCode
  | .out => wordOf 9 Config.outCode
  | .invalid9 a => wordOf 9 a

/-- The number of a word whose table positions 2, 1, 0 hold the binary digits of `w` (log 9). -/
def tablePositions (w : Nat) : Nat := w / 4 % 2 * 100 + w / 2 % 2 * 10 + w % 2

/-- The word that `w` stands for in an instruction of `nbits` bits as spec/opcode_table.json numbers them (log 9). With
`nbits` at most 8, too few for a word's number, the row gave its three digit positions as bits 2 to 0; with more, `w` is
the word's number. A number above 999 is no word. -/
def tableWord (nbits w : Nat) : Option Word :=
  if nbits ≤ 8 ∧ w < 8 then some (Word.ofNat (tablePositions w))
  else if w < 1000 then some (Word.ofNat w)
  else none

/-- What the decoder reads from an instruction numbered as the opcode table numbers it (log 9). -/
def decodeTableWord (nbits w : Nat) : Option Instr := (tableWord nbits w).map decode

end Sys2Proof
end

