-- ==== Sys2Proof/Machine/State.lean ====
section
/-! DEFINITION. The state of one core instance (10_state R20), the reasons a step can stop, and the state after reset. -/

namespace Sys2Proof.Machine

/-- The two runtime faults (60_exceptions R281). -/
inductive Cause where
  /-- code 1: execute of a word 400 to 499 (R282) -/
  | unimplementedOpcode
  /-- code 2: execute of word 900 or a word 903 to 999 (R283) -/
  | invalidInstruction
  deriving DecidableEq, Repr

/-- The run-state (10_state R32). The phases of a cycle are never its value (R33). -/
inductive RunState where
  | ready
  | halted
  | faulted (cause : Cause)
  deriving DecidableEq, Repr

/-- The 100-cell memory (10_state R22) as the list of its non-blank cells, addresses strictly rising; a cell that is not
listed holds 0 (log 1, 2). `Memory.wf` in Ops.lean says the form holds. -/
abbrev Memory := List (Addr × Word)

/-- What a cell that is not listed reads as: 0 (10_state R37; log 2). -/
def Memory.blank : Word := 0

/-- Everything the spec gives one core instance (10_state R20), and the host's side of its input and output (R35). -/
structure State where
  /-- the memory array (R22) -/
  mem : Memory
  /-- the accumulator ACC (R23) -/
  acc : Word
  /-- the current instruction register CIR (R25) -/
  cir : Word
  /-- the memory data register MDR (R26) -/
  mdr : Word
  /-- the program counter PC (R24) -/
  pc : Addr
  /-- the memory address register MAR (R26) -/
  mar : Addr
  /-- the Z-flag (R27) -/
  z : Bool
  /-- the P-flag (R27) -/
  p : Bool
  /-- the run-state with the fault record (R32, R34) -/
  run : RunState
  /-- the values the input collaborator has still to give; the head is the one it offers now (44_io R182; log 4) -/
  inputQueue : List Nat
  /-- the input history: the values INP consumed, in program order (44_io R183; log 5) -/
  inputTaken : List Nat
  /-- the output history: the words OUT gave, in program order (44_io R184; log 5) -/
  output : List Word
  deriving DecidableEq, Repr

/-- Why a step stops. A runtime fault of the machine is NOT one of these: it is a next state whose `run` is `faulted`
(60_exceptions R284). -/
inductive Fault where
  /-- Raised by execInp alone, when it is run on a state whose input collaborator offers no value. Safe: the machine has no
  such cycle (40_cycle R107), `step` never starts one, and the model stops rather than invent a value (log 7). -/
  | inputNotOffered
  deriving DecidableEq, Repr

/-- Why an instruction has no meaning. -/
inductive Refusal where
  /-- Raised by exec's arm of an instruction that is not modelled; no arm raises it, since every instruction has its
  meaning. Safe: the model stops. -/
  | notModelled (mnemonic : String)
  deriving DecidableEq, Repr

/-- The state right after reset: the reset values of 10_state R38, the one table of them, over a memory with nothing
listed, and with no input queued (log 3, 4). -/
def State.reset : State where
  mem := []
  acc := 0
  cir := 0
  mdr := 0
  pc := Config.entry
  mar := 0
  z := false
  p := false
  run := .ready
  inputQueue := []
  inputTaken := []
  output := []

/-- The state at power-on, before any `load`: every cell and register 0, flags false, Halted (10_state R37). DESIGN CHOICE
(log 22): R37 says nothing of the input queue and the two histories, and the model makes all three empty. -/
def State.powerOn : State where
  mem := []
  acc := 0
  cir := 0
  mdr := 0
  pc := 0
  mar := 0
  z := false
  p := false
  run := .halted
  inputQueue := []
  inputTaken := []
  output := []

end Sys2Proof.Machine
end

