-- ==== Sys2Proof/Machine/Flags.lean ====
section
/-! DEFINITION. The two flag computations (10_state R27, R28). -/

namespace Sys2Proof.Machine

/-- Z after an ACC-affecting instruction: ACC = 0 (10_state R27). -/
def zFlag (acc : Word) : Bool := decide (acc.val = 0)

/-- P after an ACC-affecting instruction: ACC ≥ 500 (10_state R27; 93: not to be "corrected"). -/
def pFlag (acc : Word) : Bool := decide (Config.pThreshold ≤ acc.val)

end Sys2Proof.Machine
end

