-- ==== Sys2Proof/Machine/Ops.lean ====
section
/-! DEFINITION. The named operations over memory and registers: MemRead and MemWrite of one cell (20_memory R52), fetch
(40_cycle R101), set_acc (10_state R28), raising a runtime fault (60_exceptions R284) and leaving it by `load`
(70_reset_and_hazards R320), input and output (44_io R182, R184), and when a cycle starts (40_cycle R100, R105 to R107). -/

namespace Sys2Proof.Machine

/-- The canonical form: addresses strictly rising, no blank cell listed (log 1). -/
def Memory.wf : Memory → Bool
  | [] => true
  | (a, v) :: rest => v != Memory.blank && rest.all (fun c => a < c.1) && Memory.wf rest

/-- `MemRead(a, 1)` (00_scope R12, 20_memory R52). No side effect (R59). -/
def Memory.read : Memory → Addr → Word
  | [], _ => Memory.blank
  | (b, w) :: rest, a => if b = a then w else Memory.read rest a

/-- Puts a cell before others, unless it is blank. -/
def Memory.consCell (a : Addr) (v : Word) (rest : Memory) : Memory :=
  if v = Memory.blank then rest else (a, v) :: rest

/-- `MemWrite(a, 1, v)` (00_scope R12, 20_memory R52), keeping the canonical form. -/
def Memory.write : Memory → Addr → Word → Memory
  | [], a, v => Memory.consCell a v []
  | (b, w) :: rest, a, v =>
    if a < b then Memory.consCell a v ((b, w) :: rest)
    else if a = b then Memory.consCell a v rest
    else (b, w) :: Memory.write rest a v

/-- Cells `k`, `k + 1`, … of memory set to the given words (the loop of `load`, 70_reset_and_hazards R320). -/
def Memory.place (m : Memory) (k : Nat) : List Word → Memory
  | [] => m
  | v :: vs => Memory.place (m.write (Addr.ofNat k) v) (k + 1) vs

/-- The 100 cells in address order, the shape of a machine image (20_memory R53). -/
def Memory.image (m : Memory) : List Word := (List.range 100).map fun k => m.read (Addr.ofNat k)

/-- The program counter's increment, folded mod 100 (10_state R24, 40_cycle R101). -/
def nextAddr (a : Addr) : Addr := Addr.ofNat (a.val + 1)

/-- Fetch (40_cycle R101): MAR ← PC; MDR ← mem[MAR]; CIR ← MDR; PC ← (PC + 1) mod 100. -/
def fetch (s : State) : State :=
  { s with
    mar := s.pc
    mdr := s.mem.read s.pc
    cir := s.mem.read s.pc
    pc := nextAddr s.pc }

/-- `set_acc(v)` (10_state R28): the only way an instruction writes ACC, and the flags with it. -/
def setAcc (v : Nat) (s : State) : State :=
  { s with
    acc := Word.ofNat v
    z := zFlag (Word.ofNat v)
    p := pFlag (Word.ofNat v) }

/-- `PC <- target`, a control transfer (00_scope R12). -/
def jump (a : Addr) (s : State) : State := { s with pc := a }

/-- `halt`: the run-state becomes Halted (00_scope R12, 45_control R200). -/
def halt (s : State) : State := { s with run := .halted }

/-- `raise F` (60_exceptions R284): the run-state becomes Faulted(F) and nothing else changes. There is no vector, no saved
register and no return from it; the way out is `load` below (R286). The fault is a next state of the model (log 8). -/
def raise (c : Cause) (s : State) : State := { s with run := .faulted c }

/-- `Input()` where a value is offered (44_io R182): it leaves the queue and joins the input history (R183). -/
def takeInput (v : Nat) (rest : List Nat) (s : State) : State :=
  { s with
    inputQueue := rest
    inputTaken := s.inputTaken ++ [v] }

/-- `Output(v)` (44_io R184): the word joins the output history; the sink never refuses. -/
def putOutput (v : Word) (s : State) : State := { s with output := s.output ++ [v] }

/-- INP waits (40_cycle R107): the word at `mem[PC]` decodes to INP and no value is offered. -/
def holds (s : State) : Bool := decode (s.mem.read s.pc) == .inp && s.inputQueue.isEmpty

/-- The cycle that starts at a state, if one does: the instruction that fetch and decode give and the state they leave
(40_cycle R101, R102). None does when the core is Halted (R105) or Faulted (R106), nor when INP waits (R107: "the step not
enabled until an input exists"). (log 6, 8) -/
def cycleStart (s : State) : Option (Instr × State) :=
  match s.run with
  | .ready => if holds s then none else some (decode (fetch s).cir, fetch s)
  | .halted => none
  | .faulted _ => none

/-- What `step` answers where no cycle starts: the state as it is (40_cycle R105 to R107). -/
def idle (s : State) : State := s

/-- The numeric code of a runtime fault (60_exceptions R281). -/
def causeCode : Cause → Nat
  | .unimplementedOpcode => 1
  | .invalidInstruction => 2

/-- What the host's interface refuses (60_exceptions R281); none of these changes the core's state. -/
inductive HostError where
  /-- code 3: `read` or `write` with an address outside [0, 99]; the offending address (20_memory R55, R56) -/
  | addressError (addr : Int)
  /-- code 20: `load` with an image that is not exactly 100 words (70_reset_and_hazards R321) -/
  | loadRejected
  /-- code 21: `write` with a value outside [0, 999] (20_memory R56) -/
  | valueRangeError (value : Int)
  deriving DecidableEq, Repr

/-- The numeric code of a host error (60_exceptions R281). -/
def hostErrorCode : HostError → Nat
  | .addressError _ => 3
  | .loadRejected => 20
  | .valueRangeError _ => 21

/-- An integer is a cell address (00_scope R10; log 19). -/
def isAddr (n : Int) : Bool := decide (0 ≤ n ∧ n ≤ 99)

/-- An integer is a word (00_scope R10; log 19). -/
def isWord (n : Int) : Bool := decide (0 ≤ n ∧ n ≤ 999)

/-- The host's bounds-checked `read(addr)` (20_memory R55). -/
def hostRead (addr : Int) (s : State) : Except HostError Word :=
  if isAddr addr then .ok (s.mem.read (Addr.ofNat addr.toNat)) else .error (.addressError addr)

/-- The host's bounds-checked `write(addr, value)` (20_memory R56): the address is checked first (log 18). -/
def hostWrite (addr value : Int) (s : State) : Except HostError State :=
  if isAddr addr then
    if isWord value then
      .ok { s with mem := s.mem.write (Addr.ofNat addr.toNat) (Word.ofNat value.toNat) }
    else .error (.valueRangeError value)
  else .error (.addressError addr)

/-- The image `load` accepts: exactly 100 cells, each in [0, 999] (70_reset_and_hazards R321). -/
def validImage (image : List Int) : Bool := image.length == 100 && image.all isWord

/-- The state after `load` of the given cells (70_reset_and_hazards R320): the reset values of 10_state R38, the whole
memory replaced, both histories empty, and the queued input left as it was. -/
def loaded (cells : List Word) (s : State) : State :=
  { State.reset with
    mem := Memory.place [] 0 cells
    inputQueue := s.inputQueue }

/-- `load(image)` (70_reset_and_hazards R320 to R323), accepted in every run-state. -/
def load (image : List Int) (s : State) : Except HostError State :=
  if validImage image then .ok (loaded (image.map fun n => Word.ofNat n.toNat) s) else .error .loadRejected

/-- The input collaborator queues further values (44_io R182: a pre-supplied or interactive source). -/
def offerInput (vs : List Nat) (s : State) : State := { s with inputQueue := s.inputQueue ++ vs }

/-- What the read accessors show besides the cells (20_memory R57), and what a fault reports (10_state R34). -/
structure Snapshot where
  acc : Word
  pc : Addr
  cir : Word
  mar : Addr
  mdr : Word
  z : Bool
  p : Bool
  run : RunState
  deriving DecidableEq, Repr

/-- The registers, flags and run-state, read without side effect (20_memory R57). -/
def snapshot (s : State) : Snapshot :=
  { acc := s.acc, pc := s.pc, cir := s.cir, mar := s.mar, mdr := s.mdr, z := s.z, p := s.p, run := s.run }

/-- The fault record (10_state R34): the cause with the registers at the point of failure; none when not Faulted. -/
def faultRecord (s : State) : Option (Cause × Snapshot) :=
  match s.run with
  | .faulted c => some (c, snapshot s)
  | .ready => none
  | .halted => none

/-- The address of the faulting word, `(PC + 99) mod 100` (60_exceptions R285). -/
def faultAddress (s : State) : Addr := Addr.ofNat (s.pc.val + 99)

end Sys2Proof.Machine
end

