-- ==== Sys2Proof/Machine/Operands.lean ====
section
/-! DEFINITION. The one addressing mode, direct (42_load_store R142, 30_encoding R72): the effective address is the operand
field itself, and every transfer passes through MAR and MDR. -/

namespace Sys2Proof.Machine

/-- `MAR <- a ; MDR <- MemRead(MAR, 1)`, the operand read of ADD, SUB and LDA. -/
def readOperand (a : Addr) (s : State) : State :=
  { s with
    mar := a
    mdr := s.mem.read a }

/-- `MAR <- a ; MDR <- ACC ; MemWrite(MAR, 1, MDR)`, the operand write of STA. -/
def writeOperand (a : Addr) (s : State) : State :=
  { s with
    mar := a
    mdr := s.acc
    mem := s.mem.write a s.acc }

end Sys2Proof.Machine
end

