-- ==== Sys2Proof/Machine/Arithmetic.lean ====
section
/-! DEFINITION. The Arithmetic Unit (41_arithmetic R120 to R122) and the instructions ADD and SUB (R123, R124). -/

namespace Sys2Proof.Machine

/-- `add(a, b) -> (result, carry)` (41_arithmetic R121). The carry is latched nowhere (10_state R21). -/
def aluAdd (a b : Word) : Word × Bool :=
  (Word.ofNat ((a.val + b.val) % 1000), decide (1000 ≤ a.val + b.val))

/-- `sub(a, b) -> (result, carry)`, carry true when there is no borrow (41_arithmetic R122). -/
def aluSub (a b : Word) : Word × Bool :=
  (Word.ofNat ((a.val + 1000 - b.val) % 1000), decide (b.val ≤ a.val))

/-- ADD a (41_arithmetic R123): `ACC <- (ACC + mem[a]) mod 1000`, flags recomputed, the carry discarded. -/
def execAdd (a : Addr) (s : State) : Host.Outcome State Fault Refusal :=
  .next (setAcc (aluAdd s.acc (readOperand a s).mdr).1.val (readOperand a s))

/-- SUB a (41_arithmetic R124): `ACC <- (ACC + 1000 - mem[a]) mod 1000`, flags recomputed, the carry discarded. -/
def execSub (a : Addr) (s : State) : Host.Outcome State Fault Refusal :=
  .next (setAcc (aluSub s.acc (readOperand a s).mdr).1.val (readOperand a s))

end Sys2Proof.Machine
end

