-- ==== Sys2Proof/Machine/Branch.lean ====
section
/-! DEFINITION. BRA, BRP and BRZ (43_branch R160 to R163). Fetch has already advanced PC, so a branch that is not taken
changes nothing. -/

namespace Sys2Proof.Machine

/-- BRA a (43_branch R160): `PC <- a`. -/
def execBra (a : Addr) (s : State) : Host.Outcome State Fault Refusal := .next (jump a s)

/-- BRP a (43_branch R161): `if P then PC <- a`. -/
def execBrp (a : Addr) (s : State) : Host.Outcome State Fault Refusal := .next (if s.p then jump a s else s)

/-- BRZ a (43_branch R162): `if Z then PC <- a`. -/
def execBrz (a : Addr) (s : State) : Host.Outcome State Fault Refusal := .next (if s.z then jump a s else s)

end Sys2Proof.Machine
end

