-- ==== Sys2Proof/Machine/Control.lean ====
section
/-! DEFINITION. HLT and the words that raise a runtime fault (45_control R200, R202, R203). -/

namespace Sys2Proof.Machine

/-- HLT, word 000 (45_control R200). -/
def execHlt (s : State) : Host.Outcome State Fault Refusal := .next (halt s)

/-- HLT, words 001 to 099, the operand ignored (45_control R200, 30_encoding R78). -/
def execHltOperand (_a : Addr) (s : State) : Host.Outcome State Fault Refusal := .next (halt s)

/-- Words 400 to 499 raise UnimplementedOpcode, the operand ignored (45_control R202). -/
def execReserved4 (_a : Addr) (s : State) : Host.Outcome State Fault Refusal := .next (raise .unimplementedOpcode s)

/-- Word 900 raises InvalidInstruction (45_control R203). -/
def execInvalid900 (s : State) : Host.Outcome State Fault Refusal := .next (raise .invalidInstruction s)

/-- Words 903 to 999 raise InvalidInstruction, the sub-code ignored (45_control R203). -/
def execInvalid9 (_a : Addr) (s : State) : Host.Outcome State Fault Refusal := .next (raise .invalidInstruction s)

end Sys2Proof.Machine
end

