-- ==== Sys2Proof/Machine/InOut.lean ====
section
/-! DEFINITION. INP and OUT (44_io R180, R181). -/

namespace Sys2Proof.Machine

/-- INP (44_io R180): `v <- Input() ; set_acc(v)`, folding v mod 1000. Without an offered value there is no such cycle
(40_cycle R107); `step` never starts one, and run by itself the meaning stops (log 7). -/
def execInp (s : State) : Host.Outcome State Fault Refusal :=
  match s.inputQueue with
  | [] => .fault .inputNotOffered
  | v :: rest => .next (setAcc v (takeInput v rest s))

/-- OUT (44_io R181): `Output(ACC)`. -/
def execOut (s : State) : Host.Outcome State Fault Refusal := .next (putOutput s.acc s)

end Sys2Proof.Machine
end

