-- ==== Sys2Proof/Machine/LoadStore.lean ====
section
/-! DEFINITION. STA and LDA (42_load_store R140, R141). -/

namespace Sys2Proof.Machine

/-- STA a (42_load_store R140): `mem[a] <- ACC` through MAR and MDR; ACC and the flags keep their values. -/
def execSta (a : Addr) (s : State) : Host.Outcome State Fault Refusal := .next (writeOperand a s)

/-- LDA a (42_load_store R141): `set_acc(mem[a])` through MAR and MDR. -/
def execLda (a : Addr) (s : State) : Host.Outcome State Fault Refusal :=
  .next (setAcc (readOperand a s).mdr.val (readOperand a s))

end Sys2Proof.Machine
end

