-- ==== Sys2Proof/Machine/Dispatch.lean ====
section
/-! DEFINITION. The execute phase (40_cycle R103): one arm per instruction, each a call of its meaning. The state is the
one fetch left, PC already advanced. -/

namespace Sys2Proof.Machine

def exec (i : Instr) (s : State) : Host.Outcome State Fault Refusal :=
  match i with
  | .hlt => Sys2Proof.Machine.execHlt s
  | .hltOperand a => Sys2Proof.Machine.execHltOperand a s
  | .add a => Sys2Proof.Machine.execAdd a s
  | .sub a => Sys2Proof.Machine.execSub a s
  | .sta a => Sys2Proof.Machine.execSta a s
  | .reserved4 a => Sys2Proof.Machine.execReserved4 a s
  | .lda a => Sys2Proof.Machine.execLda a s
  | .bra a => Sys2Proof.Machine.execBra a s
  | .brp a => Sys2Proof.Machine.execBrp a s
  | .brz a => Sys2Proof.Machine.execBrz a s
  | .invalid900 => Sys2Proof.Machine.execInvalid900 s
  | .inp => Sys2Proof.Machine.execInp s
  | .out => Sys2Proof.Machine.execOut s
  | .invalid9 a => Sys2Proof.Machine.execInvalid9 a s

end Sys2Proof.Machine
end

