-- ==== Sys2Proof/Machine/Placement.lean ====
section
/-! DEFINITION. Placing one word where the next step fetches (log 10): what a `load` of an image with that word at the
entry cell, and an input collaborator that offers a value where the word needs one, would leave. -/

namespace Sys2Proof.Machine

/-- The input queue with one value offered where the instruction is INP and none is (40_cycle R107). -/
def inputFor (i : Instr) (queue : List Nat) : List Nat := if i = .inp ∧ queue = [] then [0] else queue

/-- The word stored at the program counter, the core Ready, and a value offered if the word needs one (log 10). -/
def placeWord (w : Word) (s : State) : State :=
  { s with
    mem := s.mem.write s.pc w
    run := .ready
    inputQueue := inputFor (decode w) s.inputQueue }

/-- As placeWord, for a word numbered as spec/opcode_table.json numbers it; a number that is no word places nothing. -/
def placeTableWord (nbits w : Nat) (s : State) : State :=
  match tableWord nbits w with
  | some v => placeWord v s
  | none => s

end Sys2Proof.Machine
end

