-- ==== Sys2Proof/Machine/Step.lean ====
section
/-! DEFINITION. One step (40_cycle R100): the cycle that starts at the state, if one does, and otherwise the state as it
is (R105 to R107). -/

namespace Sys2Proof.Machine

/-- `step()` as a transition of the state (40_cycle R100). Its result code is `stepResult` in RunControl.lean. -/
def step (s : State) : Host.Outcome State Fault Refusal :=
  match cycleStart s with
  | some (i, t) => exec i t
  | none => .next (idle s)

/-- The state with an instruction stored where `step` fetches its next one (log 10). -/
def State.withFetchWord (s : State) (nbits w : Nat) : State := placeTableWord nbits w s

end Sys2Proof.Machine
end

