-- ==== Sys2Proof/Machine/Source.lean ====
section
/-! DEFINITION. The assembler's data: the statement record the front-end hands to the back-end (30_encoding R87), the
mnemonics (R82), the diagnostics (60_exceptions R290) and the image (50_assembler_backend R234). Plain data only; what is
done with it stands in FrontEnd.lean and Assembler.lean. -/

namespace Sys2Proof.Machine

/-- The twelve words of 30_encoding R82: ten instructions and the directives DAT and ORG. -/
inductive Mnemonic where
  | add | sub | sta | lda | bra | brp | brz | inp | out | hlt | dat | org
  deriving DecidableEq, Repr

/-- A label or symbol name, as its characters; compared exactly, case-sensitively (50_assembler_backend R223). -/
abbrev Label := List Char

/-- The operand of a statement (30_encoding R87: none, a symbol name or a literal). -/
inductive Operand where
  | absent
  | symbol (name : Label)
  | literal (value : Nat)
  deriving DecidableEq, Repr

/-- One statement, the back-end's input record (30_encoding R87). -/
structure Statement where
  /-- the optional label -/
  label : Option Label
  /-- one of the twelve words -/
  mnemonic : Mnemonic
  /-- the operand -/
  operand : Operand
  /-- the source position, counted from 1 (30_encoding R81) -/
  line : Nat
  deriving DecidableEq, Repr

/-- What a SyntaxError says it expected (30_encoding R85: "a description of the expected token"; log 16). -/
inductive Expected where
  /-- a label or a mnemonic at the start of the line -/
  | labelOrMnemonic
  /-- one of the twelve words -/
  | mnemonic
  /-- a label reference, the operand of a memory-reference or branch instruction (30_encoding R84) -/
  | labelReference
  /-- a decimal literal in [0, 999], the operand of DAT (30_encoding R84) -/
  | wordLiteral
  /-- a decimal literal, the operand of ORG (30_encoding R84) -/
  | addressLiteral
  /-- no label, before ORG (30_encoding R84) -/
  | noLabel
  /-- the end of the line (30_encoding R84: a token after the last permitted one is refused) -/
  | endOfLine
  deriving DecidableEq, Repr

/-- The assembler's diagnostics (60_exceptions R290), each with its line number. -/
inductive AsmError where
  /-- front-end: a line that breaks 30_encoding R83 or R84 -/
  | syntaxError (line : Nat) (expected : Expected)
  /-- pass 1: the label is already in the symbol table (50_assembler_backend R227) -/
  | duplicateSymbol (label : Label) (line : Nat)
  /-- pass 2: the operand symbol is not in the symbol table (50_assembler_backend R232) -/
  | undefinedSymbol (symbol : Label) (line : Nat)
  /-- pass 1: a cell-occupying statement at LC > 99, or an ORG argument > 99 (50_assembler_backend R225, R226) -/
  | addressOverflow (line : Nat)
  deriving DecidableEq, Repr

/-- The numeric code of a diagnostic (60_exceptions R290). -/
def asmErrorCode : AsmError → Nat
  | .syntaxError _ _ => 10
  | .duplicateSymbol _ _ => 11
  | .undefinedSymbol _ _ => 12
  | .addressOverflow _ => 13

/-- The line number of a diagnostic (50_assembler_backend R250). -/
def asmErrorLine : AsmError → Nat
  | .syntaxError n _ => n
  | .duplicateSymbol _ n => n
  | .undefinedSymbol _ n => n
  | .addressOverflow n => n

/-- A memory image: its cells in address order (20_memory R53, 50_assembler_backend R234). -/
abbrev Image := List Word

/-- The symbol table (50_assembler_backend R223). -/
abbrev SymbolTable := List (Label × Addr)

/-- The state of pass 1 (50_assembler_backend R221): the location counter, the symbol table, and the address `addr(s)`
given to each statement that occupies a cell, in source order. -/
structure AsmState where
  /-- the location counter LC, 100 after a statement is placed at 99 (50_assembler_backend R222) -/
  lc : Nat
  /-- the symbol table SYM, newest entry first -/
  sym : SymbolTable
  /-- the placed statements with their addresses, in source order -/
  placed : List (Statement × Addr)
  deriving DecidableEq, Repr

end Sys2Proof.Machine
end

