-- ==== Sys2Proof/Machine/FrontEnd.lean ====
section
/-! DEFINITION. The assembler front-end: source lines to statements (30_encoding R81 to R87). -/

namespace Sys2Proof.Machine

/-- The text as lines: "one statement per line" (30_encoding R81; log 13). -/
def splitLines : List Char → List (List Char)
  | [] => [[]]
  | c :: cs =>
    if c = '\n' then [] :: splitLines cs
    else
      match splitLines cs with
      | [] => [[c]]
      | l :: ls => (c :: l) :: ls

/-- The line without its comment (30_encoding R83(1)). -/
def dropComment (line : List Char) : List Char := line.takeWhile fun c => c != Config.commentToken

/-- The separators between tokens, space and tab (30_encoding R83(2)). -/
def isSeparator (c : Char) : Bool := c == ' ' || c == '\t'

/-- The token read so far, if there is one, before the tokens that follow. -/
def closeToken (readBack : List Char) (rest : List (List Char)) : List (List Char) :=
  if readBack.isEmpty then rest else readBack.reverse :: rest

/-- The tokens of a line, split at runs of separators; the first argument is the token being read, reversed. -/
def tokensFrom : List Char → List Char → List (List Char)
  | readBack, [] => closeToken readBack []
  | readBack, c :: cs =>
    if isSeparator c then closeToken readBack (tokensFrom [] cs) else tokensFrom (c :: readBack) cs

/-- The tokens of a line (30_encoding R83(1), (2)). -/
def tokensOf (line : List Char) : List (List Char) := tokensFrom [] (dropComment line)

/-- The twelve words (30_encoding R82), in capitals. -/
def mnemonicTable : List (List Char × Mnemonic) :=
  [ ("ADD".toList, .add), ("SUB".toList, .sub), ("STA".toList, .sta), ("LDA".toList, .lda),
    ("BRA".toList, .bra), ("BRP".toList, .brp), ("BRZ".toList, .brz), ("INP".toList, .inp),
    ("OUT".toList, .out), ("HLT".toList, .hlt), ("DAT".toList, .dat), ("ORG".toList, .org) ]

/-- The mnemonic a token spells, compared case-insensitively (30_encoding R82). -/
def mnemonicOf (t : List Char) : Option Mnemonic := mnemonicTable.lookup (t.map Char.toUpper)

/-- The first character of a label: a letter or `_` (30_encoding R83(4)). -/
def isLabelStart (c : Char) : Bool := c.isAlpha || c == '_'

/-- A further character of a label: a letter, a digit or `_` (30_encoding R83(4)). -/
def isLabelChar (c : Char) : Bool := c.isAlphanum || c == '_'

/-- A token is a label name: of the form of 30_encoding R83(4) and not spelled like a mnemonic (log 14). -/
def isLabelName : List Char → Bool
  | [] => false
  | c :: cs => isLabelStart c && cs.all isLabelChar && (mnemonicOf (c :: cs)).isNone

/-- The token without one trailing colon (30_encoding R83(4)). -/
def dropColon (t : List Char) : List Char := if t.getLast? = some ':' then t.dropLast else t

/-- The label a line's first token defines (30_encoding R83(3), (4)). -/
def labelOf (t : List Char) : Option Label := if isLabelName (dropColon t) then some (dropColon t) else none

/-- The value of decimal digits read after a number. -/
def digitsValue : Nat → List Char → Nat
  | n, [] => n
  | n, c :: cs => digitsValue (n * 10 + (c.toNat - '0'.toNat)) cs

/-- The value of a decimal literal: one or more digits, leading zeros allowed, no sign (30_encoding R83(5)). -/
def literalOf (t : List Char) : Option Nat :=
  if !t.isEmpty && t.all Char.isDigit then some (digitsValue 0 t) else none

/-- Exactly one operand token, accepted by `f` (30_encoding R84). -/
def oneOperand (n : Nat) (want : Expected) (f : List Char → Option Operand) : List (List Char) → Except AsmError Operand
  | [] => .error (.syntaxError n want)
  | t :: rest =>
    match f t with
    | none => .error (.syntaxError n want)
    | some o => if rest.isEmpty then .ok o else .error (.syntaxError n .endOfLine)

/-- No operand token (30_encoding R84). -/
def noOperand (n : Nat) : List (List Char) → Except AsmError Operand
  | [] => .ok .absent
  | _ :: _ => .error (.syntaxError n .endOfLine)

/-- A label reference as an operand (30_encoding R84: a numeric address is refused; log 15). -/
def labelOperand (t : List Char) : Option Operand := if isLabelName t then some (.symbol t) else none

/-- A decimal literal in [0, 999] as an operand (30_encoding R84). -/
def wordOperand (t : List Char) : Option Operand :=
  match literalOf t with
  | some v => if v ≤ 999 then some (.literal v) else none
  | none => none

/-- A decimal literal of any size as an operand; pass 1 checks its range (30_encoding R82, R84). -/
def addressOperand (t : List Char) : Option Operand := (literalOf t).map .literal

/-- The operand of a mnemonic from the tokens after it (30_encoding R84). -/
def operandFrom (m : Mnemonic) (n : Nat) (ts : List (List Char)) : Except AsmError Operand :=
  match m with
  | .add | .sub | .sta | .lda | .bra | .brp | .brz => oneOperand n .labelReference labelOperand ts
  | .inp | .out | .hlt => noOperand n ts
  | .dat => if ts.isEmpty then .ok .absent else oneOperand n .wordLiteral wordOperand ts
  | .org => oneOperand n .addressLiteral addressOperand ts

/-- The statement of a mnemonic, its label and its operand tokens; ORG carries no label (30_encoding R84). -/
def statementFrom (label : Option Label) (m : Mnemonic) (n : Nat) (ts : List (List Char)) : Except AsmError Statement :=
  if m = .org ∧ label.isSome then .error (.syntaxError n .noLabel)
  else
    match operandFrom m n ts with
    | .error e => .error e
    | .ok o => .ok { label := label, mnemonic := m, operand := o, line := n }

/-- One line, numbered `n` (30_encoding R81, R83): no statement, a statement, or a SyntaxError. -/
def parseLine (n : Nat) (line : List Char) : Except AsmError (Option Statement) :=
  match tokensOf line with
  | [] => .ok none
  | t :: ts =>
    match mnemonicOf t with
    | some m => (statementFrom none m n ts).map some
    | none =>
      match labelOf t with
      | none => .error (.syntaxError n .labelOrMnemonic)
      | some l =>
        match ts with
        | [] => .error (.syntaxError n .mnemonic)
        | u :: us =>
          match mnemonicOf u with
          | none => .error (.syntaxError n .mnemonic)
          | some m => (statementFrom (some l) m n us).map some

/-- The lines from number `n` on, in order; the first SyntaxError stops it (30_encoding R85, 50_assembler_backend R251). -/
def parseLines (n : Nat) : List (List Char) → Except AsmError (List Statement)
  | [] => .ok []
  | l :: ls =>
    match parseLine n l with
    | .error e => .error e
    | .ok s =>
      match parseLines (n + 1) ls with
      | .error e => .error e
      | .ok ss => .ok (s.toList ++ ss)

/-- The front-end: source text to the statement sequence (30_encoding R87); lines are numbered from 1 (R81). -/
def parse (source : List Char) : Except AsmError (List Statement) := parseLines 1 (splitLines source)

end Sys2Proof.Machine
end

