-- ==== Sys2Proof/Machine/Assembler.lean ====
section
/-! DEFINITION. The assembler back-end (50_assembler_backend R220 to R255): the address allocator, the symbol table, the
label resolver and the image generator, and the whole operation `assemble`. -/

namespace Sys2Proof.Machine

/-- The start of pass 1: LC = 0, an empty symbol table (50_assembler_backend R224). -/
def AsmState.start : AsmState := { lc := 0, sym := [], placed := [] }

/-- ORG (50_assembler_backend R225): the location counter jumps; no cell, no label. An ORG without a literal is no statement
of the front-end and is refused (log 17). -/
def orgStatement (st : AsmState) (s : Statement) : Except AsmError AsmState :=
  match s.operand with
  | .literal v => if v > 99 then .error (.addressOverflow s.line) else .ok { st with lc := v }
  | .absent => .error (.syntaxError s.line .addressLiteral)
  | .symbol _ => .error (.syntaxError s.line .addressLiteral)

/-- The symbol table with a statement's label bound to its address; a label already there is an error
(50_assembler_backend R227). -/
def bindLabel (sym : SymbolTable) (s : Statement) (a : Addr) : Except AsmError SymbolTable :=
  match s.label with
  | none => .ok sym
  | some l =>
    match sym.lookup l with
    | some _ => .error (.duplicateSymbol l s.line)
    | none => .ok ((l, a) :: sym)

/-- A statement that occupies a cell (50_assembler_backend R224, R226): the overflow check, then the label, then the
placement at LC, which advances by 1 and is never folded (R228). -/
def placeStatement (st : AsmState) (s : Statement) : Except AsmError AsmState :=
  if st.lc > 99 then .error (.addressOverflow s.line)
  else
    match bindLabel st.sym s (Addr.ofNat st.lc) with
    | .error e => .error e
    | .ok sym => .ok { lc := st.lc + 1, sym := sym, placed := st.placed ++ [(s, Addr.ofNat st.lc)] }

/-- One statement of pass 1. -/
def pass1Statement (st : AsmState) (s : Statement) : Except AsmError AsmState :=
  if s.mnemonic = .org then orgStatement st s else placeStatement st s

/-- Pass 1 from a state on, in source order; the first error stops it (50_assembler_backend R224, R250). -/
def pass1From (st : AsmState) : List Statement → Except AsmError AsmState
  | [] => .ok st
  | s :: ss =>
    match pass1Statement st s with
    | .error e => .error e
    | .ok st' => pass1From st' ss

/-- Pass 1 (50_assembler_backend R224). -/
def pass1 (ss : List Statement) : Except AsmError AsmState := pass1From AsmState.start ss

/-- A memory-reference or branch cell: the label resolver's look-up, and opcode * 100 + address (50_assembler_backend R232,
R240). An operand that is no symbol is no statement of the front-end and is refused (log 17). -/
def referenceCell (sym : SymbolTable) (op : Nat) (s : Statement) : Except AsmError Word :=
  match s.operand with
  | .symbol l =>
    match sym.lookup l with
    | some a => .ok (wordOf op a)
    | none => .error (.undefinedSymbol l s.line)
  | .absent => .error (.syntaxError s.line .labelReference)
  | .literal _ => .error (.syntaxError s.line .labelReference)

/-- A DAT cell: its literal, or 0 (50_assembler_backend R236). A literal above 999 or a symbol is no statement of the
front-end and is refused (log 17). -/
def datCell (s : Statement) : Except AsmError Word :=
  match s.operand with
  | .absent => .ok 0
  | .literal v => if v ≤ 999 then .ok (Word.ofNat v) else .error (.syntaxError s.line .wordLiteral)
  | .symbol _ => .error (.syntaxError s.line .wordLiteral)

/-- `cell(s)` of pass 2 (50_assembler_backend R230, R236, R240 to R243). ORG occupies no cell and is never placed; the arm
stands for totality (log 17). -/
def cellOf (sym : SymbolTable) (s : Statement) : Except AsmError Word :=
  match s.mnemonic with
  | .add => referenceCell sym 1 s
  | .sub => referenceCell sym 2 s
  | .sta => referenceCell sym 3 s
  | .lda => referenceCell sym 5 s
  | .bra => referenceCell sym 6 s
  | .brp => referenceCell sym 7 s
  | .brz => referenceCell sym 8 s
  | .inp => .ok (wordOf 9 Config.inpCode)
  | .out => .ok (wordOf 9 Config.outCode)
  | .hlt => .ok (wordOf 0 0)
  | .dat => datCell s
  | .org => .error (.syntaxError s.line .mnemonic)

/-- Pass 2 over the placed statements in source order; a later statement overwrites an earlier one's cell
(50_assembler_backend R230, R233), and the first error stops it (R250). -/
def pass2From (sym : SymbolTable) (img : Image) : List (Statement × Addr) → Except AsmError Image
  | [] => .ok img
  | (s, a) :: rest =>
    match cellOf sym s with
    | .error e => .error e
    | .ok w => pass2From sym (img.set a.val w) rest

/-- The image buffer before pass 2 writes it: 100 zeros (50_assembler_backend R231). -/
def blankImage : Image := List.replicate 100 0

/-- Pass 2 (50_assembler_backend R230). -/
def pass2 (st : AsmState) : Except AsmError Image := pass2From st.sym blankImage st.placed

/-- The back-end: a statement sequence to an image or the first error (50_assembler_backend R220, R251). -/
def backEnd (ss : List Statement) : Except AsmError Image :=
  match pass1 ss with
  | .error e => .error e
  | .ok st => pass2 st

/-- `assemble(source_text) -> machine_image` (50_assembler_backend R220): front-end, pass 1, pass 2 (R251). -/
def assemble (source : List Char) : Except AsmError Image :=
  match parse source with
  | .error e => .error e
  | .ok ss => backEnd ss

/-- The image in the form `load` takes: integers in address order (20_memory R53). -/
def imageCells (img : Image) : List Int := img.map fun w => Int.ofNat w.val

end Sys2Proof.Machine
end

