-- ==== Sys2Proof/Machine/RunControl.lean ====
section
/-! DEFINITION. What the host sees of a step and the host's run loop (40_cycle R104, R108 to R110). -/

namespace Sys2Proof.Machine

/-- The result of `step()` (40_cycle R104). -/
inductive StepResult where
  /-- the cycle completed and the core is still Ready -/
  | continued
  /-- the cycle executed HLT, or the core was already Halted -/
  | halted
  /-- the cycle raised a runtime fault, or the core was already Faulted -/
  | fault (cause : Cause)
  /-- the next instruction is INP and no input is available; nothing happened -/
  | hold
  deriving DecidableEq, Repr

/-- The result that a run-state after a cycle stands for (40_cycle R104). -/
def resultOf : RunState → StepResult
  | .ready => .continued
  | .halted => .halted
  | .faulted c => .fault c

/-- The result of `step()` at a state (40_cycle R104, R105 to R107). A step never stops with a fault or a refusal of the
model; those two arms stand only so that the function is total, and answer that nothing happened. -/
def stepResult (s : State) : StepResult :=
  if s.run = .ready ∧ holds s = true then .hold
  else
    match step s with
    | .next t => resultOf t.run
    | .fault _ => .hold
    | .refused _ => .hold

/-- The document's Boolean "whether the machine halted" (40_cycle R100, R104); a fault and a hold have none. -/
def haltedFlag : StepResult → Option Bool
  | .continued => some false
  | .halted => some true
  | .fault _ => none
  | .hold => none

/-- What the host and its input collaborator do at one turn of the run loop: at its top, or at one moment of a wait (log 12). -/
structure Turn where
  /-- cancellation is requested now (40_cycle R110) -/
  cancel : Bool
  /-- values the source makes available now (40_cycle R111) -/
  arrive : List Nat
  /-- the source will never have a value again once its queue is empty (40_cycle R108: exhausted for good) -/
  exhausted : Bool
  deriving DecidableEq, Repr

/-- The turn of a batch caller (40_cycle R111): no cancellation, nothing arrives beyond what is queued already. -/
def quietTurn : Turn := { cancel := false, arrive := [], exhausted := true }

/-- The status of `run_to_halt` (40_cycle R108). -/
inductive RunStatus where
  | halted
  | faulted (cause : Cause)
  | cancelled
  | stepLimit
  | inputExhausted
  deriving DecidableEq, Repr

/-- What the loop has reached: its status and cycle count, or that the turns given ran out while it was still running or
waiting. -/
inductive RunResult where
  | done (status : RunStatus) (cycles : Nat) (s : State)
  | running (cycles : Nat) (s : State)
  deriving DecidableEq, Repr

/-- Where the loop of `run_to_halt` stands when a turn begins (40_cycle R108). -/
structure LoopPoint where
  /-- it is inside `wait until src has a value`; otherwise it is at the loop's top -/
  waiting : Bool
  /-- cancellation was requested at an earlier turn and no check has honoured it yet (log 21) -/
  cancel : Bool
  deriving DecidableEq, Repr

/-- The first turn of a call finds the loop at its top, with no cancellation requested. -/
def LoopPoint.start : LoopPoint := { waiting := false, cancel := false }

/-- What the loop does next: return a status, wait for a value, or perform `step`. -/
inductive LoopMove where
  | finish (status : RunStatus)
  | wait
  | cycle
  deriving DecidableEq, Repr

/-- The checks at the loop's top, in the order of 40_cycle R108. -/
def topMove (limit : Option Nat) (cancel exhausted : Bool) (n : Nat) (s : State) : LoopMove :=
  match s.run with
  | .halted => .finish .halted
  | .faulted c => .finish (.faulted c)
  | .ready =>
    if cancel then .finish .cancelled
    else if limit = some n then .finish .stepLimit
    else if holds s then
      if exhausted then .finish .inputExhausted else .wait
    else .cycle

/-- `wait until src has a value` (40_cycle R108): a value alone ends the wait, and then the step is next, with no check between. -/
def waitMove (s : State) : LoopMove := if s.inputQueue = [] then .wait else .cycle

/-- The loop's move at a turn: `cancel` says whether cancellation has been requested by now. -/
def loopMove (limit : Option Nat) (p : LoopPoint) (cancel exhausted : Bool) (n : Nat) (s : State) : LoopMove :=
  if p.waiting then waitMove s else topMove limit cancel exhausted n s

/-- The loop of `run_to_halt` (40_cycle R108) from a point of it, after `n` cycles; each element of the list is one turn, so
the function is total although the loop need not be (log 12). -/
def runFrom (limit : Option Nat) : List Turn → LoopPoint → Nat → State → RunResult
  | [], _, n, s => .running n s
  | e :: es, p, n, s₀ =>
    let s := offerInput e.arrive s₀
    let cancel := p.cancel || e.cancel
    match loopMove limit p cancel e.exhausted n s with
    | .finish st => .done st n s
    | .wait => runFrom limit es { waiting := true, cancel := cancel } n s
    | .cycle =>
      match step s with
      | .next t => runFrom limit es { waiting := false, cancel := cancel } (n + 1) t
      | .fault _ => .running n s
      | .refused _ => .running n s

/-- `run_to_halt(input_source, output_sink, step_limit)` (40_cycle R108): the source is the state's input queue and what the
turns bring, the sink its output history. -/
def runToHalt (limit : Option Nat) (turns : List Turn) (s : State) : RunResult := runFrom limit turns .start 0 s

end Sys2Proof.Machine
end

