-- ==== Sys2Proof/WellFormed.lean ====
section
/-! DEFINITION. Well-formed instructions and well-formed source statements. The operand's range is its type; what is left
to check is that an instruction's operand belongs to its constructor's row of the opcode table (30_encoding R74), and that
a statement's operand and label are of the shape its mnemonic takes (30_encoding R84). -/

namespace Sys2Proof

/-- The operand lies in the row's range: 01 to 99 for the second HLT row, 03 to 99 for the second INVALID9 row
(30_encoding R74). -/
def Instr.wf : Instr → Bool
  | .hltOperand a => decide (1 ≤ a.val)
  | .invalid9 a => decide (3 ≤ a.val)
  | .hlt | .invalid900 | .inp | .out => true
  | .add _ | .sub _ | .sta _ | .reserved4 _ | .lda _ | .bra _ | .brp _ | .brz _ => true

namespace Machine

/-- The operand has the form 30_encoding R84 gives the mnemonic. -/
def operandFits : Mnemonic → Operand → Bool
  | .add, .symbol _ | .sub, .symbol _ | .sta, .symbol _ | .lda, .symbol _ => true
  | .bra, .symbol _ | .brp, .symbol _ | .brz, .symbol _ => true
  | .inp, .absent | .out, .absent | .hlt, .absent | .dat, .absent => true
  | .dat, .literal v => decide (v ≤ 999)
  | .org, .literal _ => true
  | _, _ => false

/-- A statement the front-end can hand over: its operand fits its mnemonic, ORG carries no label (30_encoding R84), and its
line number is positive (R87). -/
def Statement.wf (s : Statement) : Bool :=
  operandFits s.mnemonic s.operand && (s.mnemonic != .org || s.label.isNone) && decide (1 ≤ s.line)

end Machine

end Sys2Proof
end

