-- ==== Sys2Proof/Safety.lean ====
section
/-! DEFINITION. The terms statements are made in: when a cycle is performed, which instructions do what, the invariant of a
core instance, and the frames that say what stays unchanged. -/

namespace Sys2Proof.Machine

/-- A cycle can be performed: the core is Ready and does not wait for input (40_cycle R107: "not enabled until an input
exists"). -/
abbrev Enabled (s : State) : Prop := s.run = .ready ∧ ¬(decode (s.mem.read s.pc) = .inp ∧ s.inputQueue = [])

/-- One performed cycle, from `s` to `t` (40_cycle R100). A stopped or waiting core performs none. -/
def Cycle (s t : State) : Prop := Enabled s ∧ step s = .next t

/-- The instruction a state executes next. -/
def nextInstr (s : State) : Instr := decode (s.mem.read s.pc)

/-- The ACC-affecting instructions (00_scope R14): INP, LDA, ADD, SUB. -/
def accAffecting : Instr → Bool
  | .add _ | .sub _ | .lda _ | .inp => true
  | .hlt | .hltOperand _ | .sta _ | .reserved4 _ | .bra _ | .brp _ | .brz _ => false
  | .invalid900 | .out | .invalid9 _ => false

/-- The fault an instruction raises, if it raises one (60_exceptions R282, R283). -/
def faultOf : Instr → Option Cause
  | .reserved4 _ => some .unimplementedOpcode
  | .invalid900 | .invalid9 _ => some .invalidInstruction
  | .hlt | .hltOperand _ | .add _ | .sub _ | .sta _ | .lda _ => none
  | .bra _ | .brp _ | .brz _ | .inp | .out => none

/-- The instruction is HLT, in one of its two forms (45_control R200). -/
def isHalt : Instr → Bool
  | .hlt | .hltOperand _ => true
  | .add _ | .sub _ | .sta _ | .reserved4 _ | .lda _ | .bra _ | .brp _ | .brz _ => false
  | .invalid900 | .inp | .out | .invalid9 _ => false

/-- Z and P are as the accumulator gives them (10_state R27). -/
def FlagsExact (s : State) : Prop := (s.z = true ↔ s.acc.val = 0) ∧ (s.p = true ↔ 500 ≤ s.acc.val)

/-- Z and P are as `load` leaves them: both clear over an accumulator of 0 (10_state R29). -/
def FlagsCleared (s : State) : Prop := s.z = false ∧ s.p = false ∧ s.acc.val = 0

/-- The flags are derived from the accumulator, or untouched since `load` (10_state R27, R29). -/
def FlagsCoherent (s : State) : Prop := FlagsExact s ∨ FlagsCleared s

/-- A stopped core shows why it stopped: CIR holds an HLT word when Halted; when Faulted, the registers are as the faulting
cycle's fetch left them and CIR holds a word that raises the recorded cause (45_control R200, 60_exceptions R285). -/
def StopExplained (s : State) : Prop :=
  match s.run with
  | .ready => True
  | .halted => isHalt (decode s.cir) = true
  | .faulted c => faultOf (decode s.cir) = some c ∧ s.mdr = s.cir ∧ s.pc.val = (s.mar.val + 1) % 100

/-- The invariant of a core instance: canonical memory, coherent flags, an explained stop. -/
def State.Inv (s : State) : Prop := s.mem.wf = true ∧ FlagsCoherent s ∧ StopExplained s

/-- Memory and the run-state are unchanged. -/
def SameMemRun (s t : State) : Prop := t.mem = s.mem ∧ t.run = s.run

/-- ACC and both flags are unchanged. -/
def SameAccFlags (s t : State) : Prop := t.acc = s.acc ∧ t.z = s.z ∧ t.p = s.p

/-- MAR, MDR and CIR are unchanged. -/
def SameMarMdrCir (s t : State) : Prop := t.mar = s.mar ∧ t.mdr = s.mdr ∧ t.cir = s.cir

/-- The input queue and both histories are unchanged. -/
def SameInOut (s t : State) : Prop :=
  t.inputQueue = s.inputQueue ∧ t.inputTaken = s.inputTaken ∧ t.output = s.output

/-- What an instruction that reads a cell into ACC leaves, for the number `v` it computes: ACC = v, the flags recomputed
from it, MAR the operand address, MDR the cell read, and everything else unchanged (10_state R31). -/
def AccFromCell (a : Addr) (v : Nat) (s t : State) : Prop :=
  t.acc.val = v ∧ FlagsExact t ∧ t.mar = a ∧ t.mdr = s.mem.read a ∧
    t.pc = s.pc ∧ t.cir = s.cir ∧ SameMemRun s t ∧ SameInOut s t

/-- Every register, flag, cell and the I/O side are unchanged; only the run-state may differ. -/
def OnlyRunMayDiffer (s t : State) : Prop :=
  t.pc = s.pc ∧ t.mem = s.mem ∧ SameAccFlags s t ∧ SameMarMdrCir s t ∧ SameInOut s t

/-- Every register but PC, every flag, cell, the run-state and the I/O side are unchanged. -/
def OnlyPcMayDiffer (s t : State) : Prop :=
  SameMemRun s t ∧ SameAccFlags s t ∧ SameMarMdrCir s t ∧ SameInOut s t

/-- Where an ORG sends the location counter: its literal (50_assembler_backend R225). Another operand is no ORG of the
front-end (30_encoding R84) and leaves the counter. -/
def orgTarget (lc : Nat) : Operand → Nat
  | .literal v => v
  | .absent => lc
  | .symbol _ => lc

/-- The location counter that 50_assembler_backend R224 computes over a row of statements, from a value on: ORG jumps to its
literal, every other statement advances by 1, and nothing is folded (R228). -/
def counterFrom (lc : Nat) : List Statement → Nat
  | [] => lc
  | s :: ss => counterFrom (if s.mnemonic = .org then orgTarget lc s.operand else lc + 1) ss

/-- The statements that occupy a cell: all but ORG (50_assembler_backend R225, R226). -/
def occupying (ss : List Statement) : List Statement := ss.filter fun s => s.mnemonic ≠ .org

/-- Every symbol a placed statement refers to is in the symbol table (50_assembler_backend R232). -/
def SymbolsBound (sym : SymbolTable) (placed : List (Statement × Addr)) : Prop :=
  ∀ c ∈ placed, ∀ l : Label, c.1.operand = .symbol l → ∃ a : Addr, sym.lookup l = some a

/-- The mnemonics whose operand is a label reference (30_encoding R84). -/
def takesReference : Mnemonic → Bool
  | .add | .sub | .sta | .lda | .bra | .brp | .brz => true
  | .inp | .out | .hlt | .dat | .org => false

/-- The mnemonics that stand without an operand token (30_encoding R84). -/
def standsAlone : Mnemonic → Bool
  | .inp | .out | .hlt | .dat => true
  | .add | .sub | .sta | .lda | .bra | .brp | .brz | .org => false

/-- The values the turns of the run loop bring, in order (40_cycle R111). -/
def arrivals (turns : List Turn) : List Nat := turns.flatMap fun e => e.arrive

/-- Cancellation is requested at some of the turns (40_cycle R110). -/
def cancelAsked (turns : List Turn) : Bool := turns.any fun e => e.cancel

/-- The run loop, at its top after `n` cycles, passes every check at turn `e` and then waits there and through the turns
`waits`, at none of which a value arrives; what else happens at those is left open (40_cycle R107, R108). -/
def WaitsThrough (limit : Option Nat) (n : Nat) (s : State) (e : Turn) (waits : List Turn) : Prop :=
  s.run = .ready ∧ nextInstr s = .inp ∧ s.inputQueue = [] ∧ limit ≠ some n ∧ e.cancel = false ∧ e.exhausted = false ∧
    e.arrive = [] ∧ ∀ w ∈ waits, w.arrive = []

/-- A number lies in an inclusive range. -/
def InRange (lo hi n : Nat) : Prop := lo ≤ n ∧ n ≤ hi

end Sys2Proof.Machine
end

