-- ==== Sys2Proof/Certificates/Slice0/Obligations.lean ====
section
/-! DEFINITION. The statements for the provers. Each docstring names the rules of spec/ the statement formalises. -/

open Sys2Proof Sys2Proof.Machine

/-! ## Encoding -/

/-- One word of each opcode-table row, written out digit by digit from 30_encoding R74, decodes to its instruction. -/
def Obligations.SampleWordsDecode : Prop :=
  decode 0 = .hlt ∧ decode 50 = .hltOperand 50 ∧ decode 104 = .add 4 ∧ decode 208 = .sub 8 ∧ decode 309 = .sta 9 ∧
    decode 401 = .reserved4 1 ∧ decode 504 = .lda 4 ∧ decode 601 = .bra 1 ∧ decode 705 = .brp 5 ∧
    decode 805 = .brz 5 ∧ decode 900 = .invalid900 ∧ decode 901 = .inp ∧ decode 902 = .out ∧
    decode 999 = .invalid9 99

/-- Opcode `w div 100` and operand `w mod 100` select the instruction, an arm for every opcode (30_encoding R74, R75). That HLT
and the invalid opcode-9 words are two constructors each is the model's choice of log 11: R75 has one HLT and one
IO_INVALID. -/
def Obligations.DecodeFollowsOpcodeAndOperand : Prop :=
  ∀ (w : Word) (a : Addr), a.val = w.val % 100 →
    (w.val / 100 = 0 → decode w = if a.val = 0 then .hlt else .hltOperand a) ∧
    (w.val / 100 = 1 → decode w = .add a) ∧
    (w.val / 100 = 2 → decode w = .sub a) ∧
    (w.val / 100 = 3 → decode w = .sta a) ∧
    (w.val / 100 = 4 → decode w = .reserved4 a) ∧
    (w.val / 100 = 5 → decode w = .lda a) ∧
    (w.val / 100 = 6 → decode w = .bra a) ∧
    (w.val / 100 = 7 → decode w = .brp a) ∧
    (w.val / 100 = 8 → decode w = .brz a) ∧
    (w.val / 100 = 9 →
      decode w = if a.val = 1 then .inp else if a.val = 2 then .out else if a.val = 0 then .invalid900 else .invalid9 a) ∧
    w.val / 100 ≤ 9

/-- Decode of encode is the identity on every well-formed instruction, every operand at every value (30_encoding R70, R74). -/
def Obligations.DecodeOfEncodeIsIdentity : Prop := ∀ i : Instr, i.wf = true → decode (encode i) = i

/-- Every word decodes to a well-formed instruction whose encoding is that word, and decode is injective. That decode loses
nothing is the model's choice of log 11 (a constructor per row of the table, HLT and the invalid words keeping the operand
they ignore): in R75's own enumeration 000 to 099 are one HLT, and they have one meaning (R78). The ranges are those of
30_encoding R74, one case for each word (R71). -/
def Obligations.EveryWordIsOneWellFormedInstr : Prop :=
  (∀ w : Word, (decode w).wf = true ∧ encode (decode w) = w) ∧ Function.Injective decode

/-! ## Arithmetic unit and flags -/

/-- 41_arithmetic R121. -/
def Obligations.AluAddFoldsAndCarries : Prop :=
  ∀ a b : Word, (aluAdd a b).1.val = (a.val + b.val) % 1000 ∧ ((aluAdd a b).2 = true ↔ a.val + b.val ≥ 1000)

/-- 41_arithmetic R122, with the ten's-complement form for every b in [1, 999]. -/
def Obligations.AluSubFoldsAndCarries : Prop :=
  ∀ a b : Word, (aluSub a b).1.val = (a.val + 1000 - b.val) % 1000 ∧ ((aluSub a b).2 = true ↔ a.val ≥ b.val) ∧
    (∀ c : Word, 1 ≤ b.val → c.val = 1000 - b.val → aluSub a b = aluAdd a c)

/-- ADD and SUB of one number undo each other, because both are exact mod 1000 (41_arithmetic R125). -/
def Obligations.SubUndoesAddAndAddUndoesSub : Prop :=
  ∀ a b : Word, (aluSub (aluAdd a b).1 b).1 = a ∧ (aluAdd (aluSub a b).1 b).1 = a

/-- 41_arithmetic R126: the laws the document states as testable properties. -/
def Obligations.TestableArithmeticAndFlagLaws : Prop :=
  (∀ a b : Word, (aluAdd a b).1.val = (a.val + b.val) % 1000 ∧ (aluSub a b).1.val = (a.val + 1000 - b.val) % 1000) ∧
  (∀ (v : Nat) (s : State), ((setAcc v s).z = true ↔ v % 1000 = 0) ∧ ((setAcc v s).p = true ↔ v % 1000 ≥ 500))

/-- 10_state R28, the primitive: ACC ← v mod 1000 with both flags from it, and nothing else. -/
def Obligations.SetAccWritesAccAndFlagsOnly : Prop :=
  ∀ (v : Nat) (s : State), (setAcc v s).acc.val = v % 1000 ∧ FlagsExact (setAcc v s) ∧
    (setAcc v s).pc = s.pc ∧ SameMarMdrCir s (setAcc v s) ∧ SameMemRun s (setAcc v s) ∧ SameInOut s (setAcc v s)

/-! ## The cycle -/

/-- 40_cycle R101: MAR ← PC; MDR ← memory[MAR]; CIR ← MDR; PC ← (PC + 1) mod 100, and nothing else. -/
def Obligations.FetchLoadsWordAndAdvancesPc : Prop :=
  ∀ s : State, (fetch s).mar = s.pc ∧ (fetch s).mdr = s.mem.read s.pc ∧ (fetch s).cir = s.mem.read s.pc ∧
    (fetch s).pc.val = (s.pc.val + 1) % 100 ∧ (s.pc.val = 99 → (fetch s).pc.val = 0) ∧
    SameMemRun s (fetch s) ∧ SameAccFlags s (fetch s) ∧ SameInOut s (fetch s)

/-- 40_cycle R100 to R103: where the core is Ready and INP does not wait, a step executes the decoded word on the state
fetch leaves. -/
def Obligations.StepRunsDecodedInstruction : Prop :=
  ∀ (s : State) (i : Instr), s.run = .ready → decode (s.mem.read s.pc) = i → (i = .inp → s.inputQueue ≠ []) →
    step s = exec i (fetch s)

/-- 40_cycle R105, R106: a Halted or Faulted core is left as it is by any number of steps, which return the same result
each time; host writes and new input do not change that, and a `load` of a valid image alone leads back to Ready. -/
def Obligations.StoppedCoreStaysUntilLoad : Prop :=
  ∀ s : State, s.run ≠ .ready →
    (∀ k : Nat, Host.Core.run core k s = .next s) ∧ stepResult s = resultOf s.run ∧
    (∀ (n v : Int) (t : State), hostWrite n v s = .ok t → t.run = s.run) ∧
    (∀ vs : List Nat, (offerInput vs s).run = s.run) ∧
    (∀ (image : List Int) (t : State), load image s = .ok t → t.run = .ready)

/-- INP with no value available performs no part of the cycle, and the result is Hold (40_cycle R107). That the step answers
the unchanged state is the model's choice of log 6: R107 has no step enabled there. -/
def Obligations.InpWithoutInputHolds : Prop :=
  ∀ s : State, s.run = .ready → decode (s.mem.read s.pc) = .inp → s.inputQueue = [] →
    step s = .next s ∧ stepResult s = .hold ∧ cycleStart s = none ∧ ¬ ∃ t, Cycle s t

/-- Every step of every state answers a next state: no instruction of the map stops the model (30_encoding R71, 40_cycle
R100). That a waiting INP answers the same state, and that a stopped core and a faulting word answer a next state, is the
model's choice of log 6 and log 8; R107 and 93_implementation_defined speak of no enabled step at a wait. -/
def Obligations.EveryStepAnswersNext : Prop := ∀ s : State, ∃ t : State, step s = .next t

/-- 40_cycle R104: what each result of `step()` says. -/
def Obligations.StepResultReportsTheStep : Prop :=
  ∀ s t : State, step s = .next t →
    (stepResult s = .continued ↔ Enabled s ∧ t.run = .ready) ∧
    (stepResult s = .halted ↔ t.run = .halted) ∧
    (∀ c : Cause, stepResult s = .fault c ↔ t.run = .faulted c) ∧
    (stepResult s = .hold ↔ s.run = .ready ∧ ¬ Enabled s) ∧
    (haltedFlag (stepResult s) = some true ↔ t.run = .halted)

/-! ## The instructions: encoding, completion, result and frame. `s` is the state fetch left. -/

/-- 41_arithmetic R123. -/
def Obligations.AddFoldsIntoAcc : Prop :=
  ∀ (a : Addr) (s : State), decode (Word.ofNat (100 + a.val)) = .add a ∧
    ∃ t, exec (.add a) s = .next t ∧ AccFromCell a ((s.acc.val + (s.mem.read a).val) % 1000) s t

/-- 41_arithmetic R124. -/
def Obligations.SubFoldsIntoAcc : Prop :=
  ∀ (a : Addr) (s : State), decode (Word.ofNat (200 + a.val)) = .sub a ∧
    ∃ t, exec (.sub a) s = .next t ∧ AccFromCell a ((s.acc.val + 1000 - (s.mem.read a).val) % 1000) s t

/-- 42_load_store R141. -/
def Obligations.LdaLoadsCell : Prop :=
  ∀ (a : Addr) (s : State), decode (Word.ofNat (500 + a.val)) = .lda a ∧
    ∃ t, exec (.lda a) s = .next t ∧ AccFromCell a (s.mem.read a).val s t

/-- 42_load_store R140: the cell at the operand address becomes ACC, every other cell reads as before. -/
def Obligations.StaStoresAccInOneCell : Prop :=
  ∀ (a : Addr) (s : State), s.mem.wf = true → decode (Word.ofNat (300 + a.val)) = .sta a ∧
    ∃ t, exec (.sta a) s = .next t ∧ t.mem.read a = s.acc ∧ (∀ b : Addr, b ≠ a → t.mem.read b = s.mem.read b) ∧
      t.mem.wf = true ∧ t.mar = a ∧ t.mdr = s.acc ∧ t.cir = s.cir ∧ t.pc = s.pc ∧ t.run = s.run ∧
      SameAccFlags s t ∧ SameInOut s t

/-- 43_branch R160. -/
def Obligations.BraJumps : Prop :=
  ∀ (a : Addr) (s : State), decode (Word.ofNat (600 + a.val)) = .bra a ∧
    ∃ t, exec (.bra a) s = .next t ∧ t.pc = a ∧ OnlyPcMayDiffer s t

/-- 43_branch R161: taken exactly when P is set, which is when the last ACC-affecting instruction left ACC ≥ 500; not taken,
PC stays at the next cell fetch left there, as it does right after `load`. -/
def Obligations.BrpJumpsIfP : Prop :=
  ∀ (a : Addr) (s : State), decode (Word.ofNat (700 + a.val)) = .brp a ∧
    ∃ t, exec (.brp a) s = .next t ∧ (s.p = true → t.pc = a) ∧ (s.p = false → t.pc = s.pc) ∧
      (FlagsExact s → 500 ≤ s.acc.val → t.pc = a) ∧ (FlagsExact s → s.acc.val < 500 → t.pc = s.pc) ∧
      (FlagsCleared s → t.pc = s.pc) ∧ OnlyPcMayDiffer s t

/-- 43_branch R162: taken exactly when Z is set, which is when the last ACC-affecting instruction left ACC = 0; not taken
right after `load`, although ACC = 0 there. -/
def Obligations.BrzJumpsIfZ : Prop :=
  ∀ (a : Addr) (s : State), decode (Word.ofNat (800 + a.val)) = .brz a ∧
    ∃ t, exec (.brz a) s = .next t ∧ (s.z = true → t.pc = a) ∧ (s.z = false → t.pc = s.pc) ∧
      (FlagsExact s → s.acc.val = 0 → t.pc = a) ∧ (FlagsExact s → s.acc.val ≠ 0 → t.pc = s.pc) ∧
      (FlagsCleared s → t.pc = s.pc) ∧ OnlyPcMayDiffer s t

/-- With a value offered (44_io R180), INP folds it into ACC, recomputes the flags, takes it from the queue and adds it to
the input history; with none, a Ready core whose next word is INP does not start the cycle: nothing changes, and the result
is Hold (40_cycle R107); that the step then answers the unchanged state is the model's choice of log 6. -/
def Obligations.InpTakesOneInput : Prop :=
  decode 901 = .inp ∧
  (∀ (s : State) (v : Nat) (rest : List Nat), s.inputQueue = v :: rest →
    ∃ t, exec .inp s = .next t ∧ t.acc.val = v % 1000 ∧ FlagsExact t ∧ t.inputQueue = rest ∧
      t.inputTaken = s.inputTaken ++ [v] ∧ t.output = s.output ∧ t.pc = s.pc ∧ SameMarMdrCir s t ∧ SameMemRun s t) ∧
  (∀ s : State, s.run = .ready → nextInstr s = .inp → s.inputQueue = [] →
    cycleStart s = none ∧ step s = .next s ∧ stepResult s = .hold)

/-- 44_io R181: ACC joins the output history and nothing else changes. -/
def Obligations.OutGivesAcc : Prop :=
  decode 902 = .out ∧
  ∀ s : State, ∃ t, exec .out s = .next t ∧ t.output = s.output ++ [s.acc] ∧ t.pc = s.pc ∧
    t.inputQueue = s.inputQueue ∧ t.inputTaken = s.inputTaken ∧
    SameMemRun s t ∧ SameAccFlags s t ∧ SameMarMdrCir s t

/-- 45_control R200: any word 000 to 099 halts; the operand is ignored, and nothing but the run-state changes after fetch,
so PC points just past the HLT, CIR = MDR = the HLT word, the step's result is Halted and a later step does nothing. -/
def Obligations.HltHalts : Prop :=
  (∀ w : Word, w.val ≤ 99 → isHalt (decode w) = true) ∧
  (∀ s : State, ∃ t, exec .hlt s = .next t ∧ t.run = .halted ∧ OnlyRunMayDiffer s t) ∧
  (∀ (a : Addr) (s : State), ∃ t, exec (.hltOperand a) s = .next t ∧ t.run = .halted ∧ OnlyRunMayDiffer s t) ∧
  (∀ s : State, s.run = .ready → (s.mem.read s.pc).val ≤ 99 →
    ∃ t, step s = .next t ∧ stepResult s = .halted ∧ t.run = .halted ∧ t.pc.val = (s.pc.val + 1) % 100 ∧
      t.cir = s.mem.read s.pc ∧ t.mdr = s.mem.read s.pc ∧ t.mar = s.pc ∧
      t.mem = s.mem ∧ SameAccFlags s t ∧ SameInOut s t ∧ step t = .next t)

/-- 45_control R202: any word 400 to 499 raises UnimplementedOpcode and changes nothing but the run-state. -/
def Obligations.ReservedFourFaults : Prop :=
  ∀ (a : Addr) (s : State), decode (Word.ofNat (400 + a.val)) = .reserved4 a ∧
    ∃ t, exec (.reserved4 a) s = .next t ∧ t.run = .faulted .unimplementedOpcode ∧ OnlyRunMayDiffer s t

/-- 45_control R203: words 900 and 903 to 999 raise InvalidInstruction and change nothing but the run-state. -/
def Obligations.InvalidNineFaults : Prop :=
  decode 900 = .invalid900 ∧ (∀ a : Addr, 3 ≤ a.val → decode (Word.ofNat (900 + a.val)) = .invalid9 a) ∧
  (∀ s : State, ∃ t, exec .invalid900 s = .next t ∧ t.run = .faulted .invalidInstruction ∧ OnlyRunMayDiffer s t) ∧
  (∀ (a : Addr) (s : State),
    ∃ t, exec (.invalid9 a) s = .next t ∧ t.run = .faulted .invalidInstruction ∧ OnlyRunMayDiffer s t)

/-! ## The whole machine -/

/-- 10_state R29: the flags change only in two ways. In a step, ACC and the flags change only where the cycle's instruction
is ACC-affecting, which leaves them exact; `load` clears both over ACC = 0; no other host operation touches them. -/
def Obligations.FlagsChangeOnlyBySetAccOrLoad : Prop :=
  (∀ s t : State, step s = .next t →
    (Enabled s ∧ accAffecting (nextInstr s) = true → FlagsExact t) ∧
    (¬(Enabled s ∧ accAffecting (nextInstr s) = true) → SameAccFlags s t)) ∧
  (∀ (image : List Int) (s t : State), load image s = .ok t → t.z = false ∧ t.p = false ∧ t.acc.val = 0) ∧
  (∀ (n v : Int) (s t : State), hostWrite n v s = .ok t → SameAccFlags s t) ∧
  (∀ (vs : List Nat) (s : State), SameAccFlags s (offerInput vs s))

/-- 20_memory R66, R51: in a step a cell changes only by STA to that cell, which puts ACC there; a host write changes the
named cell alone. Memory therefore keeps its contents across HLT and across a fault. -/
def Obligations.OnlyStaAndHostWriteChangeCells : Prop :=
  (∀ (s t : State) (b : Addr), s.mem.wf = true → step s = .next t →
    (Enabled s ∧ nextInstr s = .sta b → t.mem.read b = s.acc) ∧
    (¬(Enabled s ∧ nextInstr s = .sta b) → t.mem.read b = s.mem.read b)) ∧
  (∀ (n v : Int) (s t : State) (b : Addr), s.mem.wf = true → hostWrite n v s = .ok t →
    (b.val : Int) ≠ n → t.mem.read b = s.mem.read b) ∧
  (∀ (vs : List Nat) (s : State), (offerInput vs s).mem = s.mem)

/-- Where PC points after each cycle: the operand where a branch is taken, else the next cell mod 100 (10_state R24,
43_branch R163, 40_cycle R101). -/
def Obligations.PcAfterEachCycle : Prop :=
  ∀ s t : State, Cycle s t →
    (∀ a : Addr, nextInstr s = .bra a → t.pc = a) ∧
    (∀ a : Addr, nextInstr s = .brp a ∧ s.p = true → t.pc = a) ∧
    (∀ a : Addr, nextInstr s = .brz a ∧ s.z = true → t.pc = a) ∧
    ((∀ a : Addr, nextInstr s ≠ .bra a ∧ (nextInstr s = .brp a → s.p = false) ∧ (nextInstr s = .brz a → s.z = false)) →
      t.pc.val = (s.pc.val + 1) % 100)

/-- What CIR, MAR and MDR hold after each cycle (10_state R25, R26, R31): CIR the fetched word; MAR and MDR the operand
address and the word moved for ADD, SUB, LDA and STA, and as fetch left them for every other word. -/
def Obligations.CirMarMdrAfterEachCycle : Prop :=
  ∀ s t : State, Cycle s t →
    t.cir = s.mem.read s.pc ∧
    (∀ a : Addr, nextInstr s = .add a ∨ nextInstr s = .sub a ∨ nextInstr s = .lda a →
      t.mar = a ∧ t.mdr = s.mem.read a) ∧
    (∀ a : Addr, nextInstr s = .sta a → t.mar = a ∧ t.mdr = s.acc) ∧
    ((∀ a : Addr, nextInstr s ≠ .add a ∧ nextInstr s ≠ .sub a ∧ nextInstr s ≠ .lda a ∧ nextInstr s ≠ .sta a) →
      t.mar = s.pc ∧ t.mdr = s.mem.read s.pc)

/-- The run-state after each cycle, by the number of the word executed (30_encoding R74, R76 to R78; 10_state R31): Halted
exactly for 000 to 099, Faulted(1) exactly for 400 to 499, Faulted(2) exactly for 900 and 903 to 999, else Ready. -/
def Obligations.RunStateAfterEachCycle : Prop :=
  ∀ (s t : State) (w : Nat), Cycle s t → w = (s.mem.read s.pc).val →
    (t.run = .halted ↔ InRange 0 99 w) ∧
    (t.run = .faulted .unimplementedOpcode ↔ InRange 400 499 w) ∧
    (t.run = .faulted .invalidInstruction ↔ w = 900 ∨ InRange 903 999 w) ∧
    (t.run = .ready ↔ InRange 100 399 w ∨ InRange 500 899 w ∨ InRange 901 902 w)

/-- 60_exceptions R284, R285: at a runtime fault the state is as the faulting cycle's fetch left it, the fault address is
(PC + 99) mod 100, the faulting word is CIR, and no execute effect happened. -/
def Obligations.FaultsArePrecise : Prop :=
  ∀ (s : State) (c : Cause), s.run = .ready → faultOf (decode (s.mem.read s.pc)) = some c →
    ∃ t, step s = .next t ∧ stepResult s = .fault c ∧ t.run = .faulted c ∧
      t.pc.val = (s.pc.val + 1) % 100 ∧ t.mar = s.pc ∧
      t.mdr = s.mem.read s.pc ∧ t.cir = s.mem.read s.pc ∧ faultAddress t = s.pc ∧
      t.mem = s.mem ∧ SameAccFlags s t ∧ SameInOut s t ∧ faultRecord t = some (c, snapshot t)

/-- 44_io R182, R184: an INP cycle takes exactly one offered value, an OUT cycle gives exactly one word, and no other step
touches the input queue or a history. -/
def Obligations.OnlyInpTakesAndOnlyOutGives : Prop :=
  ∀ s t : State, step s = .next t →
    (Enabled s ∧ nextInstr s = .inp →
      ∃ v, s.inputQueue = v :: t.inputQueue ∧ t.inputTaken = s.inputTaken ++ [v] ∧ t.output = s.output) ∧
    (Enabled s ∧ nextInstr s = .out →
      t.output = s.output ++ [s.acc] ∧ t.inputQueue = s.inputQueue ∧ t.inputTaken = s.inputTaken) ∧
    (¬(Enabled s ∧ (nextInstr s = .inp ∨ nextInstr s = .out)) → SameInOut s t)

/-- 44_io R183, R184 along any run from any state: what was taken and what is still queued make up the same sequence
throughout, so a run consumes a prefix of the queue in queue order; both histories only grow. -/
def Obligations.InputIsConsumedInQueueOrder : Prop :=
  ∀ (k : Nat) (s t : State), Host.Core.run core k s = .next t →
    t.inputTaken ++ t.inputQueue = s.inputTaken ++ s.inputQueue ∧
    s.inputTaken <+: t.inputTaken ∧ s.output <+: t.output

/-- The invariant (canonical memory; flags exact or as `load` left them; a stop explained by CIR) is kept by every step of
every state (10_state R27, R29, R30; 60_exceptions R285). -/
def Obligations.InvariantKeptByEveryStep : Prop := ∀ s t : State, s.Inv → step s = .next t → t.Inv

/-- The invariant holds right after reset (the model's choice of log 3) and at power-on (10_state R37, R38). -/
def Obligations.InvariantHoldsAtReset : Prop := State.reset.Inv ∧ State.powerOn.Inv

/-- The invariant is kept by every operation of the host, `load` even from a state without it (70_reset_and_hazards R320,
20_memory R56). -/
def Obligations.InvariantKeptByHost : Prop :=
  (∀ (image : List Int) (s t : State), load image s = .ok t → t.Inv) ∧
  (∀ (n v : Int) (s t : State), s.Inv → hostWrite n v s = .ok t → t.Inv) ∧
  (∀ (vs : List Nat) (s : State), s.Inv → (offerInput vs s).Inv)

/-- 20_memory R64: a stored word is what every later fetch of that cell reads, from the next cycle on, and a store into the
instruction's own cell does not change the current cycle. -/
def Obligations.FetchSeesEveryStore : Prop :=
  ∀ (s t : State) (a : Addr), s.mem.wf = true → Cycle s t → nextInstr s = .sta a →
    t.mem.read a = s.acc ∧ (t.pc = a → (fetch t).cir = s.acc) ∧ t.cir = s.mem.read s.pc ∧
    (∀ u : State, Cycle t u → nextInstr t ≠ .sta a → u.mem.read a = s.acc)

/-- The histories are observed, never read: earlier entries in front of them change no step (10_state R35, 40_cycle R112). -/
def Obligations.HistoriesInfluenceNothing : Prop :=
  ∀ (s t : State) (h : List Nat) (o : List Word), step s = .next t →
    step { s with inputTaken := h ++ s.inputTaken, output := o ++ s.output } =
      .next { t with inputTaken := h ++ t.inputTaken, output := o ++ t.output }

/-- A cycle reads of the input only the value offered now: further values queued behind it change nothing but the queue
(44_io R182: "No other instruction takes or inspects input"). -/
def Obligations.LaterInputInfluencesNothing : Prop :=
  ∀ (s t : State) (vs : List Nat), Cycle s t → Cycle (offerInput vs s) (offerInput vs t)

/-! ## Memory and the host -/

/-- Memories in canonical form are equal as data when every cell reads the same (the model's form, log 1; 10_state R22). -/
def Obligations.CanonicalMemoriesWithEqualCellsAreEqual : Prop :=
  ∀ m n : Memory, m.wf = true → n.wf = true → (∀ a : Addr, m.read a = n.read a) → m = n

/-- 20_memory R55: the host's `read`. -/
def Obligations.HostReadIsBoundsChecked : Prop :=
  ∀ (n : Int) (s : State),
    (∀ a : Addr, (a.val : Int) = n → hostRead n s = .ok (s.mem.read a)) ∧
    (¬(0 ≤ n ∧ n ≤ 99) → hostRead n s = .error (.addressError n))

/-- 20_memory R56: the host's `write`. A write that fails answers no state, so it changes nothing. That a write with both
the address and the value out of range answers AddressError is the model's reading of log 18: R56 gives the two errors no
order. -/
def Obligations.HostWriteIsBoundsChecked : Prop :=
  ∀ (n v : Int) (s : State), s.mem.wf = true →
    (∀ (a : Addr) (w : Word), (a.val : Int) = n → (w.val : Int) = v →
      ∃ t, hostWrite n v s = .ok t ∧ (∀ b : Addr, t.mem.read b = if b = a then w else s.mem.read b) ∧
        t.pc = s.pc ∧ t.run = s.run ∧ SameAccFlags s t ∧ SameMarMdrCir s t ∧ SameInOut s t) ∧
    (¬(0 ≤ n ∧ n ≤ 99) → hostWrite n v s = .error (.addressError n)) ∧
    (0 ≤ n ∧ n ≤ 99 ∧ ¬(0 ≤ v ∧ v ≤ 999) → hostWrite n v s = .error (.valueRangeError v))

/-- 70_reset_and_hazards R320, 10_state R38: `load` of a valid image, in every run-state. -/
def Obligations.LoadSetsEveryResetValue : Prop :=
  ∀ (image : List Int) (s : State), image.length = 100 → (∀ n ∈ image, 0 ≤ n ∧ n ≤ 999) →
    ∃ t, load image s = .ok t ∧
      (∀ (a : Addr) (n : Int), image[a.val]? = some n → ((t.mem.read a).val : Int) = n) ∧
      t.pc.val = 0 ∧ t.acc.val = 0 ∧ t.z = false ∧ t.p = false ∧ t.cir.val = 0 ∧ t.mar.val = 0 ∧ t.mdr.val = 0 ∧
      t.run = .ready ∧ faultRecord t = none ∧ t.inputTaken = [] ∧ t.output = [] ∧ t.inputQueue = s.inputQueue

/-- 70_reset_and_hazards R321: any other image is refused with LoadRejected, code 20; no state is answered, so nothing
changes. -/
def Obligations.LoadRefusesMalformedImages : Prop :=
  hostErrorCode .loadRejected = 20 ∧
  ∀ (image : List Int) (s : State), ¬(image.length = 100 ∧ ∀ n ∈ image, 0 ≤ n ∧ n ≤ 999) →
    load image s = .error .loadRejected

/-- 10_state R37, 70_reset_and_hazards R324: the power-on state, in which steps do nothing and from which `load` is the only
way a run begins. -/
def Obligations.PowerOnIsHaltedAndZero : Prop :=
  (∀ a : Addr, (State.powerOn.mem.read a).val = 0) ∧ State.powerOn.acc.val = 0 ∧ State.powerOn.cir.val = 0 ∧
    State.powerOn.mdr.val = 0 ∧ State.powerOn.pc.val = 0 ∧ State.powerOn.mar.val = 0 ∧
    State.powerOn.z = false ∧ State.powerOn.p = false ∧ State.powerOn.run = .halted ∧
    (∀ k : Nat, Host.Core.run core k State.powerOn = .next State.powerOn) ∧
    (∀ (n v : Int) (t : State), hostWrite n v State.powerOn = .ok t → t.run = .halted) ∧
    (∀ vs : List Nat, (offerInput vs State.powerOn).run = .halted) ∧
    (∀ (image : List Int) (t : State), load image State.powerOn = .ok t → t.run = .ready)

/-- The model's State.reset, a choice of log 3, is what `load` of an image of 100 zeros makes of the power-on state. -/
def Obligations.ResetIsLoadOfBlankImage : Prop := load (List.replicate 100 0) State.powerOn = .ok State.reset

/-! ## The run loop -/

/-- 40_cycle R109: with a limit N at most N cycles are performed, and with N = 0 none. -/
def Obligations.RunLoopRespectsStepLimit : Prop :=
  ∀ (N : Nat) (turns : List Turn) (s : State),
    (∀ (st : RunStatus) (n : Nat) (t : State), runToHalt (some N) turns s = .done st n t →
      n ≤ N ∧ (st = .stepLimit → n = N ∧ t.run = .ready)) ∧
    (∀ (n : Nat) (t : State), runToHalt (some N) turns s = .running n t → n ≤ N)

/-- The run loop is that many steps of the machine on the values that have arrived, and its status says how it ended
(40_cycle R108: it "repeatedly calls step()"; R111). Whether the source is interactive or all its values were queued before
makes no difference: the state reached is the one that as many steps reach with the values of the turns used queued at the
start. In the other direction, a core that performs `n` cycles and is then stopped is reported so after `n` cycles. And where
the loop waits, it goes on waiting whatever else happens until a value arrives, and then performs the INP cycle with no check
between. The form of the loop, a list of turns, is log 12, and that a request for cancellation made in a wait is kept for the
next check is log 21. -/
def Obligations.RunLoopIsRepeatedSteps : Prop :=
  (∀ (limit : Option Nat) (turns : List Turn) (s : State),
    (∀ (st : RunStatus) (n : Nat) (t : State), runToHalt limit turns s = .done st n t →
      ∃ (used : List Turn) (last : Turn), used ++ [last] <+: turns ∧
        Host.Core.run core n (offerInput (arrivals (used ++ [last])) s) = .next t ∧
        (st = .halted ↔ t.run = .halted) ∧ (∀ c : Cause, st = .faulted c ↔ t.run = .faulted c) ∧
        (st = .cancelled → cancelAsked (used ++ [last]) = true ∧ t.run = .ready) ∧
        (st = .stepLimit → limit = some n ∧ t.run = .ready) ∧
        (st = .inputExhausted → last.exhausted = true ∧ t.run = .ready ∧ ¬ Enabled t)) ∧
    (∀ (n : Nat) (t : State), runToHalt limit turns s = .running n t →
      Host.Core.run core n (offerInput (arrivals turns) s) = .next t)) ∧
  (∀ (n : Nat) (s t : State), Host.Core.run core n s = .next t →
    (∀ (m : Nat) (u : State), m < n → Host.Core.run core m s = .next u → Enabled u) →
    (t.run = .halted → runToHalt none (List.replicate (n + 1) quietTurn) s = .done .halted n t) ∧
    (∀ c : Cause, t.run = .faulted c →
      runToHalt none (List.replicate (n + 1) quietTurn) s = .done (.faulted c) n t)) ∧
  (∀ (limit : Option Nat) (n : Nat) (s : State) (e : Turn) (waits : List Turn), WaitsThrough limit n s e waits →
    runFrom limit (e :: waits) .start n s = .running n s ∧
    ∀ (v : Turn) (es : List Turn), v.arrive ≠ [] → ∃ t : State, Cycle (offerInput v.arrive s) t ∧
      runFrom limit (e :: waits ++ v :: es) .start n s =
        runFrom limit es { waiting := false, cancel := cancelAsked (waits ++ [v]) } (n + 1) t)

/-- 40_cycle R110: at the loop's top, a cancellation requested at this turn or before is honoured, between cycles: a Ready
core stays as it is after the cycles performed, and a later call continues from that state. A request made while the loop
waits does not end the wait; when a value comes, the INP cycle is performed and the request honoured after it (R108's loop).
Values that arrive at a turn are queued first, which is the model's choice of log 12; that a request stays until it is
honoured is log 21. -/
def Obligations.CancellationLeavesCoreReady : Prop :=
  (∀ (limit : Option Nat) (p : LoopPoint) (e : Turn) (es : List Turn) (n : Nat) (s : State),
    p.waiting = false → p.cancel = true ∨ e.cancel = true → s.run = .ready →
    runFrom limit (e :: es) p n s = .done .cancelled n (offerInput e.arrive s) ∧ (offerInput e.arrive s).run = .ready ∧
    (e.arrive = [] → offerInput e.arrive s = s)) ∧
  (∀ (limit : Option Nat) (n : Nat) (s : State) (e v l : Turn) (waits es : List Turn),
    WaitsThrough limit n s e waits → v.arrive ≠ [] → cancelAsked (waits ++ [v]) = true →
    ∃ t : State, Cycle (offerInput v.arrive s) t ∧ t.run = .ready ∧
      runFrom limit (e :: waits ++ v :: l :: es) .start n s = .done .cancelled (n + 1) (offerInput l.arrive t))

/-! ## The assembler -/

/-- 30_encoding R84, R87: every statement the front-end hands over has an operand of the form its mnemonic takes, no label
on ORG and a positive line number. -/
def Obligations.ParsedStatementsAreWellFormed : Prop :=
  ∀ (source : List Char) (ss : List Statement), parse source = .ok ss → ∀ s ∈ ss, s.wf = true

/-- 50_assembler_backend R234: an assembled image has exactly 100 cells, each a word, so every core accepts it, and each
cell then reads as the image has it. -/
def Obligations.AssembledImageLoads : Prop :=
  ∀ (source : List Char) (img : Image), assemble source = .ok img → img.length = 100 ∧
    ∀ s : State, ∃ t, load (imageCells img) s = .ok t ∧ t.run = .ready ∧ t.pc.val = 0 ∧
      ∀ a : Addr, img[a.val]? = some (t.mem.read a)

/-- 50_assembler_backend R236, R240 to R243: the word emitted for a statement decodes to the instruction its mnemonic
names, at the address its symbol has; DAT becomes its literal or 0. -/
def Obligations.EmittedWordsDecodeToTheirMnemonic : Prop :=
  ∀ (sym : SymbolTable) (s : Statement) (w : Word), cellOf sym s = .ok w →
    (∀ l : Label, s.operand = .symbol l → ∀ a : Addr, sym.lookup l = some a →
      (s.mnemonic = .add → decode w = .add a) ∧ (s.mnemonic = .sub → decode w = .sub a) ∧
      (s.mnemonic = .sta → decode w = .sta a) ∧ (s.mnemonic = .lda → decode w = .lda a) ∧
      (s.mnemonic = .bra → decode w = .bra a) ∧ (s.mnemonic = .brp → decode w = .brp a) ∧
      (s.mnemonic = .brz → decode w = .brz a)) ∧
    (s.mnemonic = .inp → w.val = 901 ∧ decode w = .inp) ∧ (s.mnemonic = .out → w.val = 902 ∧ decode w = .out) ∧
    (s.mnemonic = .hlt → w.val = 0 ∧ decode w = .hlt) ∧
    (s.mnemonic = .dat → s.operand = .absent → w.val = 0) ∧
    (∀ v : Nat, s.mnemonic = .dat → s.operand = .literal v → w.val = v)

/-- 50_assembler_backend R222 to R226: after pass 1 the location counter is the one R224 computes, ORG included, and at most
100; the labels in the symbol table are unique; the statements that occupy a cell are placed in source order, each at the
counter R224 computes over the statements before it; and a label has the address of its own statement's cell. -/
def Obligations.PassOneBuildsUniqueLabels : Prop :=
  ∀ (ss : List Statement) (st : AsmState), pass1 ss = .ok st →
    st.lc = counterFrom 0 ss ∧ st.lc ≤ 100 ∧ (st.sym.map Prod.fst).Nodup ∧ st.placed.map Prod.fst = occupying ss ∧
    (∀ (before after : List Statement) (s : Statement), ss = before ++ s :: after → s.mnemonic ≠ .org →
      ∃ a : Addr, a.val = counterFrom 0 before ∧ st.placed[(occupying before).length]? = some (s, a)) ∧
    (∀ (s : Statement) (a : Addr) (l : Label), (s, a) ∈ st.placed → s.label = some l → st.sym.lookup l = some a)

/-- 50_assembler_backend R224 to R228, one statement of pass 1 after any row that passed: ORG with a literal in [0, 99]
moves the counter there and nothing else, a literal above 99 is an AddressOverflowError at its line; any other statement is
an AddressOverflowError at its line when the counter is above 99, else a DuplicateSymbolError of its label at its line when
that is bound already, else it is placed at the counter, which advances by 1, with its label bound there. -/
def Obligations.PassOneTakesOneStatementMore : Prop :=
  pass1 [] = .ok { lc := 0, sym := [], placed := [] } ∧
  ∀ (before after : List Statement) (s : Statement) (st : AsmState), pass1 before = .ok st →
    (∀ v : Nat, s.mnemonic = .org → s.operand = .literal v → v ≤ 99 →
      pass1 (before ++ [s]) = .ok { lc := v, sym := st.sym, placed := st.placed }) ∧
    (∀ v : Nat, s.mnemonic = .org → s.operand = .literal v → 99 < v →
      pass1 (before ++ s :: after) = .error (.addressOverflow s.line)) ∧
    (s.mnemonic ≠ .org → 99 < st.lc → pass1 (before ++ s :: after) = .error (.addressOverflow s.line)) ∧
    (∀ (l : Label) (a : Addr), s.mnemonic ≠ .org → st.lc ≤ 99 → s.label = some l → st.sym.lookup l = some a →
      pass1 (before ++ s :: after) = .error (.duplicateSymbol l s.line)) ∧
    (∀ a : Addr, s.mnemonic ≠ .org → a.val = st.lc → s.label = none →
      pass1 (before ++ [s]) = .ok { lc := st.lc + 1, sym := st.sym, placed := st.placed ++ [(s, a)] }) ∧
    (∀ (l : Label) (a : Addr), s.mnemonic ≠ .org → a.val = st.lc → s.label = some l → st.sym.lookup l = none →
      ∃ sym : SymbolTable,
        pass1 (before ++ [s]) = .ok { lc := st.lc + 1, sym := sym, placed := st.placed ++ [(s, a)] } ∧
        sym.lookup l = some a ∧ (∀ k : Label, k ≠ l → sym.lookup k = st.sym.lookup k))

/-- 50_assembler_backend R231, R233: after pass 2 a cell that no statement occupies is 0, and a cell that several occupy has
the value of the one later in source order. -/
def Obligations.LastStatementOfACellWins : Prop :=
  ∀ (st : AsmState) (img : Image), pass2 st = .ok img →
    (∀ a : Addr, a ∉ st.placed.map Prod.snd → img[a.val]? = some 0) ∧
    (∀ (before after : List (Statement × Addr)) (s : Statement) (a : Addr) (w : Word),
      st.placed = before ++ (s, a) :: after → a ∉ after.map Prod.snd → cellOf st.sym s = .ok w → img[a.val]? = some w)

/-- 50_assembler_backend R252, R232, R250, R251: on statements of the front-end the back-end fails only with the three error
kinds. Pass 1 gives DuplicateSymbolError or AddressOverflowError; pass 2 gives UndefinedSymbolError, naming the first symbol
in statement order that a placed statement refers to and the table lacks, with that statement's line; and where every symbol
referred to is bound, pass 2 and with it the back-end give an image. -/
def Obligations.BackEndRaisesThreeErrorKinds : Prop :=
  ∀ ss : List Statement, (∀ s ∈ ss, s.wf = true) →
    (∀ e : AsmError, pass1 ss = .error e →
      (∃ s ∈ ss, ∃ l, s.label = some l ∧ e = .duplicateSymbol l s.line) ∨ (∃ s ∈ ss, e = .addressOverflow s.line)) ∧
    (∀ (st : AsmState) (e : AsmError), pass1 ss = .ok st → pass2 st = .error e →
      ∃ (before after : List (Statement × Addr)) (s : Statement) (a : Addr) (l : Label),
        st.placed = before ++ (s, a) :: after ∧ SymbolsBound st.sym before ∧ s.operand = .symbol l ∧
        st.sym.lookup l = none ∧ e = .undefinedSymbol l s.line) ∧
    (∀ st : AsmState, pass1 ss = .ok st → SymbolsBound st.sym st.placed →
      ∃ img : Image, pass2 st = .ok img ∧ backEnd ss = .ok img)

/-- 50_assembler_backend R254, R226: statements without ORG and without labels fill the cells in order; up to 100 of them
pass, and the 101st is an AddressOverflowError at its line. -/
def Obligations.SequentialProgramsFitHundredCells : Prop :=
  ∀ ss : List Statement, (∀ s ∈ ss, s.mnemonic ≠ .org ∧ s.label = none) →
    (ss.length ≤ 100 → ∃ st, pass1 ss = .ok st ∧ st.lc = ss.length ∧
      ∀ (k : Nat) (s : Statement), ss[k]? = some s → st.placed[k]? = some (s, Addr.ofNat k)) ∧
    (∀ s : Statement, ss[100]? = some s → pass1 ss = .error (.addressOverflow s.line))

/-- 30_encoding R81 to R84, the lines the front-end accepts, by their tokens: no token is no statement; a mnemonic that stands
alone, a reference with a label name, DAT with a literal in [0, 999] and ORG with a literal are statements without a label
and with the line's number; and the same lines but for ORG after a label are those statements with that label. -/
def Obligations.LinesOfTheGrammarAreAccepted : Prop :=
  ∀ (n : Nat) (line : List Char),
    (tokensOf line = [] → parseLine n line = .ok none) ∧
    (∀ (t : List Char) (m : Mnemonic), mnemonicOf t = some m →
      (standsAlone m = true → tokensOf line = [t] → parseLine n line = .ok (some ⟨none, m, .absent, n⟩)) ∧
      (∀ u : List Char, takesReference m = true → isLabelName u = true → tokensOf line = [t, u] →
        parseLine n line = .ok (some ⟨none, m, .symbol u, n⟩)) ∧
      (∀ (u : List Char) (v : Nat), m = .dat → literalOf u = some v → v ≤ 999 → tokensOf line = [t, u] →
        parseLine n line = .ok (some ⟨none, m, .literal v, n⟩)) ∧
      (∀ (u : List Char) (v : Nat), m = .org → literalOf u = some v → tokensOf line = [t, u] →
        parseLine n line = .ok (some ⟨none, m, .literal v, n⟩)) ∧
      (∀ (d : List Char) (l : Label), mnemonicOf d = none → labelOf d = some l →
        (standsAlone m = true → tokensOf line = [d, t] → parseLine n line = .ok (some ⟨some l, m, .absent, n⟩)) ∧
        (∀ u : List Char, takesReference m = true → isLabelName u = true → tokensOf line = [d, t, u] →
          parseLine n line = .ok (some ⟨some l, m, .symbol u, n⟩)) ∧
        (∀ (u : List Char) (v : Nat), m = .dat → literalOf u = some v → v ≤ 999 → tokensOf line = [d, t, u] →
          parseLine n line = .ok (some ⟨some l, m, .literal v, n⟩))))
end

