-- ==== Sys2Proof/Laws/Assembler.lean ====
section
/-! SUPPORT. What a placement, an operand and a look-up answer when they succeed, so that proofs about the passes do not
unfold them. -/

namespace Sys2Proof.Machine

/-- An accepted single operand is what its reader made of one token. -/
theorem oneOperand_ok {n : Nat} {want : Expected} {f : List Char → Option Operand} {ts : List (List Char)} {o : Operand}
    (h : oneOperand n want f ts = .ok o) : ∃ t, f t = some o := by
  unfold oneOperand at h
  split at h
  · cases h
  · next t _ =>
    split at h
    · cases h
    · next ho =>
      split at h
      · cases h; exact ⟨t, ho⟩
      · cases h

/-- A statement that could be placed: the counter was in range and advanced by one, the statement stands at the old
counter, and its label, if it has one, was new and is bound there (50_assembler_backend R224). -/
theorem placeStatement_ok {st u : AsmState} {s : Statement} (h : placeStatement st s = .ok u) :
    st.lc ≤ 99 ∧ u.lc = st.lc + 1 ∧ u.placed = st.placed ++ [(s, Addr.ofNat st.lc)] ∧
      ((s.label = none ∧ u.sym = st.sym) ∨
        ∃ l, s.label = some l ∧ st.sym.lookup l = none ∧ u.sym = (l, Addr.ofNat st.lc) :: st.sym) := by
  unfold placeStatement at h
  split at h
  · cases h
  · next hl =>
    split at h
    · cases h
    · next sym hs =>
      cases h
      refine ⟨by omega, rfl, rfl, ?_⟩
      unfold bindLabel at hs
      split at hs
      · next hn => cases hs; exact .inl ⟨hn, rfl⟩
      · next l hn =>
        split at hs
        · cases hs
        · next h' => cases hs; exact .inr ⟨l, hn, h', rfl⟩

/-- An ORG that succeeded moved the counter alone, to an address (50_assembler_backend R225). -/
theorem orgStatement_ok {st u : AsmState} {s : Statement} (h : orgStatement st s = .ok u) :
    ∃ v, s.operand = .literal v ∧ v ≤ 99 ∧ u = { st with lc := v } := by
  unfold orgStatement at h
  split at h
  · next v hv =>
    split at h
    · cases h
    · cases h; exact ⟨v, hv, by omega, rfl⟩
  · cases h
  · cases h

/-- Pass 1 over a row and then another is pass 1 over the second from where the first ended. -/
theorem pass1From_append (ss rest : List Statement) (st : AsmState) :
    pass1From st (ss ++ rest) =
      match pass1From st ss with
      | .error e => .error e
      | .ok u => pass1From u rest := by
  induction ss generalizing st with
  | nil => rfl
  | cons s ss ih =>
    simp only [List.cons_append, pass1From]
    split
    · rfl
    · exact ih _

/-- A name that the symbol table does not find is none of its labels. -/
theorem lookup_none_not_mem {sym : SymbolTable} {l : Label} (h : sym.lookup l = none) : l ∉ sym.map Prod.fst := by
  induction sym with
  | nil => simp
  | cons c sym ih =>
    obtain ⟨k, a⟩ := c
    rw [List.lookup_cons] at h
    by_cases hk : l = k
    · subst hk; simp at h
    · have e : (l == k) = false := beq_eq_false_iff_ne.mpr hk
      rw [e] at h
      simpa [hk] using ih h

end Sys2Proof.Machine
end

