-- ==== Sys2Proof/Laws/Memory.lean ====
section
/-! SUPPORT. The laws of memory: a read after a write, and that every memory operation keeps the canonical form. -/

namespace Sys2Proof.Machine

@[simp] theorem Memory.read_nil (a : Addr) : Memory.read [] a = Memory.blank := rfl

theorem Memory.read_cons (b : Addr) (w : Word) (m : Memory) (a : Addr) :
    Memory.read ((b, w) :: m) a = if b = a then w else Memory.read m a := rfl

/-- A cell below every listed one reads as blank. -/
theorem Memory.read_below {m : Memory} {a : Addr} (h : ∀ c ∈ m, a < c.1) : Memory.read m a = Memory.blank := by
  induction m with
  | nil => rfl
  | cons c m ih =>
    obtain ⟨b, w⟩ := c
    have hb : a < b := h (b, w) (by simp)
    rw [Memory.read_cons, if_neg (ne_of_gt hb)]
    exact ih fun c hc => h c (by simp [hc])

/-- What the canonical form says of a listed cell and of those after it. -/
theorem Memory.wf_cons {b : Addr} {w : Word} {m : Memory} :
    Memory.wf ((b, w) :: m) = true ↔ w ≠ Memory.blank ∧ (∀ c ∈ m, b < c.1) ∧ Memory.wf m = true := by
  simp [Memory.wf, and_assoc]

/-- Putting a cell before cells that lie above it, or leaving it out when it is blank, reads as that cell. -/
theorem Memory.read_consCell (a : Addr) (v : Word) (m : Memory) (h : ∀ c ∈ m, a < c.1) (b : Addr) :
    Memory.read (Memory.consCell a v m) b = if a = b then v else Memory.read m b := by
  unfold Memory.consCell
  split
  · next hv =>
    split
    · next hab => subst hab; rw [hv]; exact Memory.read_below h
    · rfl
  · exact Memory.read_cons a v m b

/-- One cell after a write: the value written at that address, the old value elsewhere (20_memory R62). -/
theorem Memory.read_write {m : Memory} (h : Memory.wf m = true) (a b : Addr) (v : Word) :
    Memory.read (Memory.write m a v) b = if a = b then v else Memory.read m b := by
  induction m with
  | nil => exact Memory.read_consCell a v [] (by simp) b
  | cons c m ih =>
    obtain ⟨d, w⟩ := c
    obtain ⟨-, hd, hm⟩ := Memory.wf_cons.mp h
    unfold Memory.write
    split
    · next had =>
      refine Memory.read_consCell a v _ (fun c hc => ?_) b
      rcases List.mem_cons.mp hc with rfl | hc
      · exact had
      · exact lt_trans had (hd c hc)
    · split
      · next had =>
        subst had
        rw [Memory.read_consCell a v m hd b, Memory.read_cons]
        split <;> rfl
      · next had =>
        rw [Memory.read_cons, Memory.read_cons, ih hm]
        by_cases hdb : d = b
        · subst hdb; simp [had]
        · simp [hdb]

/-- The addresses a write lists: the one written and those listed before. -/
theorem Memory.mem_write {m : Memory} {a : Addr} {v : Word} {c : Addr × Word} (h : c ∈ Memory.write m a v) :
    c = (a, v) ∨ c ∈ m := by
  have key : ∀ {r : Memory}, c ∈ Memory.consCell a v r → c = (a, v) ∨ c ∈ r := fun {r} hc => by
    unfold Memory.consCell at hc
    split at hc
    · exact .inr hc
    · exact List.mem_cons.mp hc
  induction m with
  | nil => exact key h
  | cons d m ih =>
    obtain ⟨b, w⟩ := d
    unfold Memory.write at h
    split at h
    · exact key h
    · split at h
      · exact (key h).imp_right (List.mem_cons_of_mem _)
      · rcases List.mem_cons.mp h with rfl | h
        · exact .inr (by simp)
        · exact (ih h).imp_right (List.mem_cons_of_mem _)

/-- Putting a cell before cells that lie above it keeps the canonical form. -/
theorem Memory.wf_consCell {a : Addr} {v : Word} {m : Memory} (h : ∀ c ∈ m, a < c.1) (hm : Memory.wf m = true) :
    Memory.wf (Memory.consCell a v m) = true := by
  unfold Memory.consCell
  split
  · exact hm
  · next hv => exact Memory.wf_cons.mpr ⟨hv, h, hm⟩

/-- A write keeps the canonical form. -/
theorem Memory.wf_write {m : Memory} (h : Memory.wf m = true) (a : Addr) (v : Word) :
    Memory.wf (Memory.write m a v) = true := by
  induction m with
  | nil => exact Memory.wf_consCell (by simp) rfl
  | cons c m ih =>
    obtain ⟨b, w⟩ := c
    obtain ⟨hw, hb, hm⟩ := Memory.wf_cons.mp h
    unfold Memory.write
    split
    · next hab =>
      refine Memory.wf_consCell (fun c hc => ?_) h
      rcases List.mem_cons.mp hc with rfl | hc
      · exact hab
      · exact lt_trans hab (hb c hc)
    · next hab =>
      split
      · next hab' => subst hab'; exact Memory.wf_consCell hb hm
      · next hne =>
        refine Memory.wf_cons.mpr ⟨hw, fun c hc => ?_, ih hm⟩
        rcases Memory.mem_write hc with rfl | hc
        · exact lt_of_le_of_ne (not_lt.mp hab) (Ne.symm hne)
        · exact hb c hc

/-- Placing a row of words keeps the canonical form. -/
theorem Memory.wf_place {m : Memory} (h : Memory.wf m = true) (k : Nat) (vs : List Word) :
    Memory.wf (Memory.place m k vs) = true := by
  induction vs generalizing m k with
  | nil => exact h
  | cons v vs ih => exact ih (Memory.wf_write h _ _) _

end Sys2Proof.Machine
end

