-- ==== Sys2Proof/Laws/Number.lean ====
section
/-! SUPPORT. Folding a number to a word or an address. -/

namespace Sys2Proof

/-- A word folded from a number is that number mod 1000. -/
theorem Word.val_ofNat (n : Nat) : (Word.ofNat n).val = n % 1000 := rfl

/-- An address folded from a number is that number mod 100. -/
theorem Addr.val_ofNat (n : Nat) : (Addr.ofNat n).val = n % 100 := rfl

/-- Folding a word's own number gives the word back. -/
@[simp] theorem Word.ofNat_val (w : Word) : Word.ofNat w.val = w := Fin.ext (Nat.mod_eq_of_lt w.isLt)

/-- Folding an address's own number gives the address back. -/
@[simp] theorem Addr.ofNat_val (a : Addr) : Addr.ofNat a.val = a := Fin.ext (Nat.mod_eq_of_lt a.isLt)

end Sys2Proof
end

