-- ==== Sys2Proof/Laws/Host.lean ====
section
/-! SUPPORT. What the host's operations answer: `load` and `write` in the case they succeed, and what the cells placed by
`load` read as. -/

namespace Sys2Proof.Machine

/-- The image `load` accepts, as a proposition (70_reset_and_hazards R321). -/
theorem validImage_iff (image : List Int) :
    validImage image = true ↔ image.length = 100 ∧ ∀ n ∈ image, 0 ≤ n ∧ n ≤ 999 := by
  simp [validImage, isWord]

/-- A load that succeeds was of a valid image and left the state `loaded` describes. -/
theorem load_ok {image : List Int} {s t : State} (h : load image s = .ok t) :
    validImage image = true ∧ t = loaded (image.map fun n => Word.ofNat n.toNat) s := by
  unfold load at h
  split at h
  · next hv => cases h; exact ⟨hv, rfl⟩
  · cases h

/-- A write that succeeds was to a cell, of a word, and changed that cell alone. -/
theorem hostWrite_ok {n v : Int} {s t : State} (h : hostWrite n v s = .ok t) :
    isAddr n = true ∧ isWord v = true ∧
      t = { s with mem := s.mem.write (Addr.ofNat n.toNat) (Word.ofNat v.toNat) } := by
  unfold hostWrite at h
  split at h
  · next hn =>
    split at h
    · next hv => cases h; exact ⟨hn, hv, rfl⟩
    · cases h
  · cases h

/-- A row of words placed from cell `k` on: those cells hold the words, the others read as before. -/
theorem Memory.read_place (vs : List Word) (m : Memory) (k : Nat) (hm : m.wf = true) (hk : k + vs.length ≤ 100)
    (a : Addr) :
    (Memory.place m k vs).read a =
      if h : k ≤ a.val ∧ a.val < k + vs.length then vs[a.val - k]'(by omega) else m.read a := by
  induction vs generalizing m k with
  | nil => simp [Memory.place]
  | cons v vs ih =>
    simp only [List.length_cons] at hk
    show (Memory.place (m.write (Addr.ofNat k) v) (k + 1) vs).read a = _
    rw [ih _ _ (Memory.wf_write hm _ _) (by omega), Memory.read_write hm]
    have hkv : (Addr.ofNat k).val = k := by rw [Addr.val_ofNat]; omega
    by_cases hka : Addr.ofNat k = a
    · subst hka
      rw [dif_neg (by omega), dif_pos (by simp only [List.length_cons]; omega)]
      simp [hkv]
    · have : k ≠ a.val := fun h => hka (Fin.ext (by rw [hkv, h]))
      simp only [hka, if_false, List.length_cons]
      by_cases hr : k + 1 ≤ a.val ∧ a.val < k + 1 + vs.length
      · rw [dif_pos hr, dif_pos (by omega)]
        have : a.val - k = (a.val - (k + 1)) + 1 := by omega
        simp [this]
      · rw [dif_neg hr, dif_neg (by omega)]

end Sys2Proof.Machine
end

