-- ==== Sys2Proof/Laws/PerInstr.lean ====
section
/-! SUPPORT. Statements made per instruction. EncodingRange: a well-formed instruction's word lies in its row's range of
the opcode table (30_encoding R74). -/

namespace Sys2Proof.Laws.EncodingRange

/-- The row's `range` of spec/opcode_table.json (30_encoding R74: it is authoritative). -/
def tableRange : Instr → Nat × Nat
  | .hlt => (0, 0)
  | .hltOperand _ => (1, 99)
  | .add _ => (100, 199)
  | .sub _ => (200, 299)
  | .sta _ => (300, 399)
  | .reserved4 _ => (400, 499)
  | .lda _ => (500, 599)
  | .bra _ => (600, 699)
  | .brp _ => (700, 799)
  | .brz _ => (800, 899)
  | .invalid900 => (900, 900)
  | .inp => (901, 901)
  | .out => (902, 902)
  | .invalid9 _ => (903, 999)

/-- The encoded word of a well-formed instruction lies in its row's range. -/
def Statement (i : Instr) : Prop :=
  i.wf = true → (tableRange i).1 ≤ (encode i).val ∧ (encode i).val ≤ (tableRange i).2

/-- The number of a word built from one opcode digit and an address. -/
theorem wordOf_val (op : Nat) (h : op ≤ 9) (a : Addr) : (wordOf op a).val = op * 100 + a.val := by
  have := a.isLt
  exact Nat.mod_eq_of_lt (by omega)

theorem hlt : Statement .hlt := fun _ => by decide
theorem hltOperand (a : Addr) : Statement (.hltOperand a) := by
  intro h
  have hw : 1 ≤ a.val := of_decide_eq_true h
  have := a.isLt
  simp only [encode, tableRange, wordOf_val 0 (by decide)]
  omega
theorem add (a : Addr) : Statement (.add a) := by
  intro _
  have := a.isLt
  simp only [encode, tableRange, wordOf_val 1 (by decide)]
  omega
theorem sub (a : Addr) : Statement (.sub a) := by
  intro _
  have := a.isLt
  simp only [encode, tableRange, wordOf_val 2 (by decide)]
  omega
theorem sta (a : Addr) : Statement (.sta a) := by
  intro _
  have := a.isLt
  simp only [encode, tableRange, wordOf_val 3 (by decide)]
  omega
theorem reserved4 (a : Addr) : Statement (.reserved4 a) := by
  intro _
  have := a.isLt
  simp only [encode, tableRange, wordOf_val 4 (by decide)]
  omega
theorem lda (a : Addr) : Statement (.lda a) := by
  intro _
  have := a.isLt
  simp only [encode, tableRange, wordOf_val 5 (by decide)]
  omega
theorem bra (a : Addr) : Statement (.bra a) := by
  intro _
  have := a.isLt
  simp only [encode, tableRange, wordOf_val 6 (by decide)]
  omega
theorem brp (a : Addr) : Statement (.brp a) := by
  intro _
  have := a.isLt
  simp only [encode, tableRange, wordOf_val 7 (by decide)]
  omega
theorem brz (a : Addr) : Statement (.brz a) := by
  intro _
  have := a.isLt
  simp only [encode, tableRange, wordOf_val 8 (by decide)]
  omega
theorem invalid900 : Statement .invalid900 := fun _ => by decide
theorem inp : Statement .inp := fun _ => by decide
theorem out : Statement .out := fun _ => by decide
theorem invalid9 (a : Addr) : Statement (.invalid9 a) := by
  intro h
  have hw : 3 ≤ a.val := of_decide_eq_true h
  have := a.isLt
  simp only [encode, tableRange, wordOf_val 9 (by decide)]
  omega

end Sys2Proof.Laws.EncodingRange
end

