-- ==== Sys2Proof/Laws/RunControl.lean ====
section
/-! SUPPORT. What a turn of the run loop can do: later proofs cite these instead of unfolding runFrom. -/

namespace Sys2Proof.Machine

/-- The checks at the loop's top, each with what the checks before it found (40_cycle R108). -/
theorem topMove_cases (limit : Option Nat) (cancel exhausted : Bool) (n : Nat) (s : State) :
    (s.run = .halted ∧ topMove limit cancel exhausted n s = .finish .halted) ∨
    (∃ c, s.run = .faulted c ∧ topMove limit cancel exhausted n s = .finish (.faulted c)) ∨
    (s.run = .ready ∧
      ((cancel = true ∧ topMove limit cancel exhausted n s = .finish .cancelled) ∨
       (cancel = false ∧ limit = some n ∧ topMove limit cancel exhausted n s = .finish .stepLimit) ∨
       (cancel = false ∧ limit ≠ some n ∧ holds s = true ∧ exhausted = true ∧
          topMove limit cancel exhausted n s = .finish .inputExhausted) ∨
       (cancel = false ∧ limit ≠ some n ∧ holds s = true ∧ exhausted = false ∧
          topMove limit cancel exhausted n s = .wait) ∨
       (cancel = false ∧ limit ≠ some n ∧ holds s = false ∧ topMove limit cancel exhausted n s = .cycle))) := by
  unfold topMove
  cases s.run <;> cases cancel <;> by_cases hl : limit = some n <;> cases holds s <;> cases exhausted <;> simp [hl]

/-- A wait goes on while nothing is queued. -/
theorem waitMove_empty {s : State} (h : s.inputQueue = []) : waitMove s = .wait := by simp [waitMove, h]

/-- A queued value ends the wait with the step. -/
theorem waitMove_value {s : State} (h : s.inputQueue ≠ []) : waitMove s = .cycle := by simp [waitMove, h]

@[simp] theorem loopMove_waiting (limit : Option Nat) (c cancel exhausted : Bool) (n : Nat) (s : State) :
    loopMove limit { waiting := true, cancel := c } cancel exhausted n s = waitMove s := rfl

@[simp] theorem loopMove_top (limit : Option Nat) (c cancel exhausted : Bool) (n : Nat) (s : State) :
    loopMove limit { waiting := false, cancel := c } cancel exhausted n s = topMove limit cancel exhausted n s := rfl

/-- A turn at which the loop returns. -/
theorem runFrom_finish {limit : Option Nat} {e : Turn} {es : List Turn} {p : LoopPoint} {n : Nat} {s : State}
    {st : RunStatus}
    (h : loopMove limit p (p.cancel || e.cancel) e.exhausted n (offerInput e.arrive s) = .finish st) :
    runFrom limit (e :: es) p n s = .done st n (offerInput e.arrive s) := by
  simp only [runFrom, h]

/-- A turn at which the loop waits. -/
theorem runFrom_wait {limit : Option Nat} {e : Turn} {es : List Turn} {p : LoopPoint} {n : Nat} {s : State}
    (h : loopMove limit p (p.cancel || e.cancel) e.exhausted n (offerInput e.arrive s) = .wait) :
    runFrom limit (e :: es) p n s =
      runFrom limit es { waiting := true, cancel := p.cancel || e.cancel } n (offerInput e.arrive s) := by
  simp only [runFrom, h]

/-- A turn at which the loop performs a step that answers a next state. -/
theorem runFrom_cycle {limit : Option Nat} {e : Turn} {es : List Turn} {p : LoopPoint} {n : Nat} {s t : State}
    (h : loopMove limit p (p.cancel || e.cancel) e.exhausted n (offerInput e.arrive s) = .cycle)
    (ht : step (offerInput e.arrive s) = .next t) :
    runFrom limit (e :: es) p n s =
      runFrom limit es { waiting := false, cancel := p.cancel || e.cancel } (n + 1) t := by
  simp only [runFrom, h, ht]

end Sys2Proof.Machine
end

