-- ==== Sys2Proof/Laws/State.lean ====
section
/-! SUPPORT. One lemma per field per named update of State, so that no later proof unfolds a record update. -/

namespace Sys2Proof.Machine

@[simp] theorem fetch_mem (s : State) : (fetch s).mem = s.mem := rfl
@[simp] theorem fetch_acc (s : State) : (fetch s).acc = s.acc := rfl
@[simp] theorem fetch_cir (s : State) : (fetch s).cir = s.mem.read s.pc := rfl
@[simp] theorem fetch_mdr (s : State) : (fetch s).mdr = s.mem.read s.pc := rfl
@[simp] theorem fetch_pc (s : State) : (fetch s).pc = nextAddr s.pc := rfl
@[simp] theorem fetch_mar (s : State) : (fetch s).mar = s.pc := rfl
@[simp] theorem fetch_z (s : State) : (fetch s).z = s.z := rfl
@[simp] theorem fetch_p (s : State) : (fetch s).p = s.p := rfl
@[simp] theorem fetch_run (s : State) : (fetch s).run = s.run := rfl
@[simp] theorem fetch_inputQueue (s : State) : (fetch s).inputQueue = s.inputQueue := rfl
@[simp] theorem fetch_inputTaken (s : State) : (fetch s).inputTaken = s.inputTaken := rfl
@[simp] theorem fetch_output (s : State) : (fetch s).output = s.output := rfl

@[simp] theorem setAcc_mem (v : Nat) (s : State) : (setAcc v s).mem = s.mem := rfl
@[simp] theorem setAcc_acc (v : Nat) (s : State) : (setAcc v s).acc = Word.ofNat v := rfl
@[simp] theorem setAcc_cir (v : Nat) (s : State) : (setAcc v s).cir = s.cir := rfl
@[simp] theorem setAcc_mdr (v : Nat) (s : State) : (setAcc v s).mdr = s.mdr := rfl
@[simp] theorem setAcc_pc (v : Nat) (s : State) : (setAcc v s).pc = s.pc := rfl
@[simp] theorem setAcc_mar (v : Nat) (s : State) : (setAcc v s).mar = s.mar := rfl
@[simp] theorem setAcc_z (v : Nat) (s : State) : (setAcc v s).z = zFlag (Word.ofNat v) := rfl
@[simp] theorem setAcc_p (v : Nat) (s : State) : (setAcc v s).p = pFlag (Word.ofNat v) := rfl
@[simp] theorem setAcc_run (v : Nat) (s : State) : (setAcc v s).run = s.run := rfl
@[simp] theorem setAcc_inputQueue (v : Nat) (s : State) : (setAcc v s).inputQueue = s.inputQueue := rfl
@[simp] theorem setAcc_inputTaken (v : Nat) (s : State) : (setAcc v s).inputTaken = s.inputTaken := rfl
@[simp] theorem setAcc_output (v : Nat) (s : State) : (setAcc v s).output = s.output := rfl

@[simp] theorem jump_mem (a : Addr) (s : State) : (jump a s).mem = s.mem := rfl
@[simp] theorem jump_acc (a : Addr) (s : State) : (jump a s).acc = s.acc := rfl
@[simp] theorem jump_cir (a : Addr) (s : State) : (jump a s).cir = s.cir := rfl
@[simp] theorem jump_mdr (a : Addr) (s : State) : (jump a s).mdr = s.mdr := rfl
@[simp] theorem jump_pc (a : Addr) (s : State) : (jump a s).pc = a := rfl
@[simp] theorem jump_mar (a : Addr) (s : State) : (jump a s).mar = s.mar := rfl
@[simp] theorem jump_z (a : Addr) (s : State) : (jump a s).z = s.z := rfl
@[simp] theorem jump_p (a : Addr) (s : State) : (jump a s).p = s.p := rfl
@[simp] theorem jump_run (a : Addr) (s : State) : (jump a s).run = s.run := rfl
@[simp] theorem jump_inputQueue (a : Addr) (s : State) : (jump a s).inputQueue = s.inputQueue := rfl
@[simp] theorem jump_inputTaken (a : Addr) (s : State) : (jump a s).inputTaken = s.inputTaken := rfl
@[simp] theorem jump_output (a : Addr) (s : State) : (jump a s).output = s.output := rfl

@[simp] theorem halt_mem (s : State) : (halt s).mem = s.mem := rfl
@[simp] theorem halt_acc (s : State) : (halt s).acc = s.acc := rfl
@[simp] theorem halt_cir (s : State) : (halt s).cir = s.cir := rfl
@[simp] theorem halt_mdr (s : State) : (halt s).mdr = s.mdr := rfl
@[simp] theorem halt_pc (s : State) : (halt s).pc = s.pc := rfl
@[simp] theorem halt_mar (s : State) : (halt s).mar = s.mar := rfl
@[simp] theorem halt_z (s : State) : (halt s).z = s.z := rfl
@[simp] theorem halt_p (s : State) : (halt s).p = s.p := rfl
@[simp] theorem halt_run (s : State) : (halt s).run = .halted := rfl
@[simp] theorem halt_inputQueue (s : State) : (halt s).inputQueue = s.inputQueue := rfl
@[simp] theorem halt_inputTaken (s : State) : (halt s).inputTaken = s.inputTaken := rfl
@[simp] theorem halt_output (s : State) : (halt s).output = s.output := rfl

@[simp] theorem raise_mem (c : Cause) (s : State) : (raise c s).mem = s.mem := rfl
@[simp] theorem raise_acc (c : Cause) (s : State) : (raise c s).acc = s.acc := rfl
@[simp] theorem raise_cir (c : Cause) (s : State) : (raise c s).cir = s.cir := rfl
@[simp] theorem raise_mdr (c : Cause) (s : State) : (raise c s).mdr = s.mdr := rfl
@[simp] theorem raise_pc (c : Cause) (s : State) : (raise c s).pc = s.pc := rfl
@[simp] theorem raise_mar (c : Cause) (s : State) : (raise c s).mar = s.mar := rfl
@[simp] theorem raise_z (c : Cause) (s : State) : (raise c s).z = s.z := rfl
@[simp] theorem raise_p (c : Cause) (s : State) : (raise c s).p = s.p := rfl
@[simp] theorem raise_run (c : Cause) (s : State) : (raise c s).run = .faulted c := rfl
@[simp] theorem raise_inputQueue (c : Cause) (s : State) : (raise c s).inputQueue = s.inputQueue := rfl
@[simp] theorem raise_inputTaken (c : Cause) (s : State) : (raise c s).inputTaken = s.inputTaken := rfl
@[simp] theorem raise_output (c : Cause) (s : State) : (raise c s).output = s.output := rfl

@[simp] theorem takeInput_mem (v : Nat) (rest : List Nat) (s : State) : (takeInput v rest s).mem = s.mem := rfl
@[simp] theorem takeInput_acc (v : Nat) (rest : List Nat) (s : State) : (takeInput v rest s).acc = s.acc := rfl
@[simp] theorem takeInput_cir (v : Nat) (rest : List Nat) (s : State) : (takeInput v rest s).cir = s.cir := rfl
@[simp] theorem takeInput_mdr (v : Nat) (rest : List Nat) (s : State) : (takeInput v rest s).mdr = s.mdr := rfl
@[simp] theorem takeInput_pc (v : Nat) (rest : List Nat) (s : State) : (takeInput v rest s).pc = s.pc := rfl
@[simp] theorem takeInput_mar (v : Nat) (rest : List Nat) (s : State) : (takeInput v rest s).mar = s.mar := rfl
@[simp] theorem takeInput_z (v : Nat) (rest : List Nat) (s : State) : (takeInput v rest s).z = s.z := rfl
@[simp] theorem takeInput_p (v : Nat) (rest : List Nat) (s : State) : (takeInput v rest s).p = s.p := rfl
@[simp] theorem takeInput_run (v : Nat) (rest : List Nat) (s : State) : (takeInput v rest s).run = s.run := rfl
@[simp] theorem takeInput_inputQueue (v : Nat) (rest : List Nat) (s : State) : (takeInput v rest s).inputQueue = rest := rfl
@[simp] theorem takeInput_inputTaken (v : Nat) (rest : List Nat) (s : State) : (takeInput v rest s).inputTaken = s.inputTaken ++ [v] := rfl
@[simp] theorem takeInput_output (v : Nat) (rest : List Nat) (s : State) : (takeInput v rest s).output = s.output := rfl

@[simp] theorem putOutput_mem (v : Word) (s : State) : (putOutput v s).mem = s.mem := rfl
@[simp] theorem putOutput_acc (v : Word) (s : State) : (putOutput v s).acc = s.acc := rfl
@[simp] theorem putOutput_cir (v : Word) (s : State) : (putOutput v s).cir = s.cir := rfl
@[simp] theorem putOutput_mdr (v : Word) (s : State) : (putOutput v s).mdr = s.mdr := rfl
@[simp] theorem putOutput_pc (v : Word) (s : State) : (putOutput v s).pc = s.pc := rfl
@[simp] theorem putOutput_mar (v : Word) (s : State) : (putOutput v s).mar = s.mar := rfl
@[simp] theorem putOutput_z (v : Word) (s : State) : (putOutput v s).z = s.z := rfl
@[simp] theorem putOutput_p (v : Word) (s : State) : (putOutput v s).p = s.p := rfl
@[simp] theorem putOutput_run (v : Word) (s : State) : (putOutput v s).run = s.run := rfl
@[simp] theorem putOutput_inputQueue (v : Word) (s : State) : (putOutput v s).inputQueue = s.inputQueue := rfl
@[simp] theorem putOutput_inputTaken (v : Word) (s : State) : (putOutput v s).inputTaken = s.inputTaken := rfl
@[simp] theorem putOutput_output (v : Word) (s : State) : (putOutput v s).output = s.output ++ [v] := rfl

@[simp] theorem readOperand_mem (a : Addr) (s : State) : (readOperand a s).mem = s.mem := rfl
@[simp] theorem readOperand_acc (a : Addr) (s : State) : (readOperand a s).acc = s.acc := rfl
@[simp] theorem readOperand_cir (a : Addr) (s : State) : (readOperand a s).cir = s.cir := rfl
@[simp] theorem readOperand_mdr (a : Addr) (s : State) : (readOperand a s).mdr = s.mem.read a := rfl
@[simp] theorem readOperand_pc (a : Addr) (s : State) : (readOperand a s).pc = s.pc := rfl
@[simp] theorem readOperand_mar (a : Addr) (s : State) : (readOperand a s).mar = a := rfl
@[simp] theorem readOperand_z (a : Addr) (s : State) : (readOperand a s).z = s.z := rfl
@[simp] theorem readOperand_p (a : Addr) (s : State) : (readOperand a s).p = s.p := rfl
@[simp] theorem readOperand_run (a : Addr) (s : State) : (readOperand a s).run = s.run := rfl
@[simp] theorem readOperand_inputQueue (a : Addr) (s : State) : (readOperand a s).inputQueue = s.inputQueue := rfl
@[simp] theorem readOperand_inputTaken (a : Addr) (s : State) : (readOperand a s).inputTaken = s.inputTaken := rfl
@[simp] theorem readOperand_output (a : Addr) (s : State) : (readOperand a s).output = s.output := rfl

@[simp] theorem writeOperand_mem (a : Addr) (s : State) : (writeOperand a s).mem = s.mem.write a s.acc := rfl
@[simp] theorem writeOperand_acc (a : Addr) (s : State) : (writeOperand a s).acc = s.acc := rfl
@[simp] theorem writeOperand_cir (a : Addr) (s : State) : (writeOperand a s).cir = s.cir := rfl
@[simp] theorem writeOperand_mdr (a : Addr) (s : State) : (writeOperand a s).mdr = s.acc := rfl
@[simp] theorem writeOperand_pc (a : Addr) (s : State) : (writeOperand a s).pc = s.pc := rfl
@[simp] theorem writeOperand_mar (a : Addr) (s : State) : (writeOperand a s).mar = a := rfl
@[simp] theorem writeOperand_z (a : Addr) (s : State) : (writeOperand a s).z = s.z := rfl
@[simp] theorem writeOperand_p (a : Addr) (s : State) : (writeOperand a s).p = s.p := rfl
@[simp] theorem writeOperand_run (a : Addr) (s : State) : (writeOperand a s).run = s.run := rfl
@[simp] theorem writeOperand_inputQueue (a : Addr) (s : State) : (writeOperand a s).inputQueue = s.inputQueue := rfl
@[simp] theorem writeOperand_inputTaken (a : Addr) (s : State) : (writeOperand a s).inputTaken = s.inputTaken := rfl
@[simp] theorem writeOperand_output (a : Addr) (s : State) : (writeOperand a s).output = s.output := rfl

@[simp] theorem offerInput_mem (vs : List Nat) (s : State) : (offerInput vs s).mem = s.mem := rfl
@[simp] theorem offerInput_acc (vs : List Nat) (s : State) : (offerInput vs s).acc = s.acc := rfl
@[simp] theorem offerInput_cir (vs : List Nat) (s : State) : (offerInput vs s).cir = s.cir := rfl
@[simp] theorem offerInput_mdr (vs : List Nat) (s : State) : (offerInput vs s).mdr = s.mdr := rfl
@[simp] theorem offerInput_pc (vs : List Nat) (s : State) : (offerInput vs s).pc = s.pc := rfl
@[simp] theorem offerInput_mar (vs : List Nat) (s : State) : (offerInput vs s).mar = s.mar := rfl
@[simp] theorem offerInput_z (vs : List Nat) (s : State) : (offerInput vs s).z = s.z := rfl
@[simp] theorem offerInput_p (vs : List Nat) (s : State) : (offerInput vs s).p = s.p := rfl
@[simp] theorem offerInput_run (vs : List Nat) (s : State) : (offerInput vs s).run = s.run := rfl
@[simp] theorem offerInput_inputQueue (vs : List Nat) (s : State) : (offerInput vs s).inputQueue = s.inputQueue ++ vs := rfl
@[simp] theorem offerInput_inputTaken (vs : List Nat) (s : State) : (offerInput vs s).inputTaken = s.inputTaken := rfl
@[simp] theorem offerInput_output (vs : List Nat) (s : State) : (offerInput vs s).output = s.output := rfl

@[simp] theorem placeWord_mem (w : Word) (s : State) : (placeWord w s).mem = s.mem.write s.pc w := rfl
@[simp] theorem placeWord_acc (w : Word) (s : State) : (placeWord w s).acc = s.acc := rfl
@[simp] theorem placeWord_cir (w : Word) (s : State) : (placeWord w s).cir = s.cir := rfl
@[simp] theorem placeWord_mdr (w : Word) (s : State) : (placeWord w s).mdr = s.mdr := rfl
@[simp] theorem placeWord_pc (w : Word) (s : State) : (placeWord w s).pc = s.pc := rfl
@[simp] theorem placeWord_mar (w : Word) (s : State) : (placeWord w s).mar = s.mar := rfl
@[simp] theorem placeWord_z (w : Word) (s : State) : (placeWord w s).z = s.z := rfl
@[simp] theorem placeWord_p (w : Word) (s : State) : (placeWord w s).p = s.p := rfl
@[simp] theorem placeWord_run (w : Word) (s : State) : (placeWord w s).run = .ready := rfl
@[simp] theorem placeWord_inputQueue (w : Word) (s : State) : (placeWord w s).inputQueue = inputFor (decode w) s.inputQueue := rfl
@[simp] theorem placeWord_inputTaken (w : Word) (s : State) : (placeWord w s).inputTaken = s.inputTaken := rfl
@[simp] theorem placeWord_output (w : Word) (s : State) : (placeWord w s).output = s.output := rfl

end Sys2Proof.Machine
end

