-- ==== Sys2Proof/Laws/Step.lean ====
section
/-! SUPPORT. What each meaning answers, when a cycle starts, and what a step can do: later proofs cite these instead of
unfolding exec or step. -/

namespace Sys2Proof.Machine

theorem zFlag_eq_true (w : Word) : zFlag w = true ↔ w.val = 0 := by simp [zFlag]

theorem pFlag_eq_true (w : Word) : pFlag w = true ↔ 500 ≤ w.val := by
  unfold pFlag Config.pThreshold
  exact decide_eq_true_iff

theorem exec_hlt (s : State) : exec .hlt s = .next (halt s) := rfl
theorem exec_hltOperand (a : Addr) (s : State) : exec (.hltOperand a) s = .next (halt s) := rfl
theorem exec_add (a : Addr) (s : State) :
    exec (.add a) s = .next (setAcc (aluAdd s.acc (s.mem.read a)).1.val (readOperand a s)) := rfl
theorem exec_sub (a : Addr) (s : State) :
    exec (.sub a) s = .next (setAcc (aluSub s.acc (s.mem.read a)).1.val (readOperand a s)) := rfl
theorem exec_sta (a : Addr) (s : State) : exec (.sta a) s = .next (writeOperand a s) := rfl
theorem exec_reserved4 (a : Addr) (s : State) : exec (.reserved4 a) s = .next (raise .unimplementedOpcode s) := rfl
theorem exec_lda (a : Addr) (s : State) :
    exec (.lda a) s = .next (setAcc (s.mem.read a).val (readOperand a s)) := rfl
theorem exec_bra (a : Addr) (s : State) : exec (.bra a) s = .next (jump a s) := rfl
theorem exec_brp (a : Addr) (s : State) : exec (.brp a) s = .next (if s.p then jump a s else s) := rfl
theorem exec_brz (a : Addr) (s : State) : exec (.brz a) s = .next (if s.z then jump a s else s) := rfl
theorem exec_invalid900 (s : State) : exec .invalid900 s = .next (raise .invalidInstruction s) := rfl
theorem exec_inp_waiting {s : State} (h : s.inputQueue = []) : exec .inp s = .fault .inputNotOffered := by
  show execInp s = _
  simp [execInp, h]
theorem exec_inp_offered {s : State} {v : Nat} {rest : List Nat} (h : s.inputQueue = v :: rest) :
    exec .inp s = .next (setAcc v (takeInput v rest s)) := by
  show execInp s = _
  simp [execInp, h]
theorem exec_out (s : State) : exec .out s = .next (putOutput s.acc s) := rfl
theorem exec_invalid9 (a : Addr) (s : State) : exec (.invalid9 a) s = .next (raise .invalidInstruction s) := rfl

/-- Offering nothing changes nothing. -/
@[simp] theorem offerInput_nil (s : State) : offerInput [] s = s := by simp [offerInput]

/-- Values offered twice join the queue in the order they came. -/
theorem offerInput_offerInput (vs ws : List Nat) (s : State) :
    offerInput ws (offerInput vs s) = offerInput (vs ++ ws) s := by simp [offerInput]

/-- INP waits exactly when the next word decodes to INP and nothing is offered (40_cycle R107). -/
theorem holds_eq_true (s : State) : holds s = true ↔ decode (s.mem.read s.pc) = .inp ∧ s.inputQueue = [] := by
  simp [holds, List.isEmpty_iff]

/-- A stopped or waiting core starts no cycle. -/
theorem cycleStart_eq_none (s : State) : cycleStart s = none ↔ s.run ≠ .ready ∨ holds s = true := by
  unfold cycleStart
  split <;> simp_all

/-- A Ready core that does not wait starts the cycle of the word at its program counter. -/
theorem cycleStart_ready {s : State} (hr : s.run = .ready) (hh : holds s = false) :
    cycleStart s = some (decode (s.mem.read s.pc), fetch s) := by
  simp [cycleStart, hr, hh]

/-- Everything a step can do: nothing, where no cycle starts; else execute the fetched word on the fetched state. -/
theorem step_cases (s : State) :
    ((s.run ≠ .ready ∨ holds s = true) ∧ step s = .next s) ∨
      (s.run = .ready ∧ holds s = false ∧ step s = exec (decode (s.mem.read s.pc)) (fetch s)) := by
  by_cases h : s.run ≠ .ready ∨ holds s = true
  · exact .inl ⟨h, by simp [step, (cycleStart_eq_none s).mpr h, idle]⟩
  · obtain ⟨hr, hh⟩ := not_or.mp h
    have hr := not_not.mp hr
    have hh := Bool.eq_false_iff.mpr hh
    exact .inr ⟨hr, hh, by simp [step, cycleStart_ready hr hh]⟩

/-- One more step of the interface's run, where the step answers a next state. -/
theorem core_run_succ {s t : State} (h : step s = .next t) (k : Nat) :
    Host.Core.run core (k + 1) s = Host.Core.run core k t := by
  have h' : core.step s = .next t := h
  simp only [Host.Core.run, h']

end Sys2Proof.Machine
end

