-- ==== Sys2Proof/Tests/Slice0.lean ====
section
/-! SUPPORT. The author's tests: decoding of words written out from 30_encoding R74, ill-formed terms that the checks refuse,
the vectors of 95_test_vectors, and a witness for every obligation with hypotheses. -/

namespace Sys2Proof.Tests

open Sys2Proof Sys2Proof.Machine

/-- The state an outcome carries, checked. -/
def nextIs (o : Host.Outcome State Fault Refusal) (f : State → Bool) : Bool :=
  match o with
  | .next t => f t
  | .fault _ => false
  | .refused _ => false

/-- The state after one step. -/
def after (s : State) : State :=
  match step s with
  | .next t => t
  | .fault _ => s
  | .refused _ => s

/-- A Ready core at cell 10 with the word there and one further cell (95_test_vectors 2.2 to 2.5). -/
def at10 (acc : Word) (w : Word) (a : Addr) (v : Word) : State :=
  { State.reset with
    acc := acc
    pc := 10
    mem := (Memory.write [] 10 w).write a v }

/-- A Ready core at cell 3 with ACC = 10 and the word there (95_test_vectors 2.6). -/
def at3 (w : Word) : State :=
  { State.reset with
    acc := 10
    pc := 3
    mem := Memory.write [] 3 w }

/-- A Ready core at cell 0 with the word there and the given input. -/
def at0 (w : Word) (queue : List Nat) : State :=
  { State.reset with
    mem := Memory.write [] 0 w
    inputQueue := queue }

/-! ### Well-formedness refuses ill-formed terms -/

theorem test_wf_hltOperand_zero : (Instr.hltOperand 0).wf = false := by decide
theorem test_wf_invalid9_inp_code : (Instr.invalid9 1).wf = false ∧ (Instr.invalid9 2).wf = false := by decide
theorem test_wf_statement_operand :
    ({ label := none, mnemonic := .lda, operand := .literal 5, line := 1 } : Statement).wf = false := by decide
theorem test_wf_statement_dat_range :
    ({ label := none, mnemonic := .dat, operand := .literal 1000, line := 1 } : Statement).wf = false := by decide
theorem test_wf_statement_org_label :
    ({ label := some ['x'], mnemonic := .org, operand := .literal 5, line := 1 } : Statement).wf = false := by decide
theorem test_wf_statement_line :
    ({ label := none, mnemonic := .hlt, operand := .absent, line := 0 } : Statement).wf = false := by decide
theorem test_wf_memory_blank_cell : Memory.wf [(5, 0)] = false := by decide
theorem test_wf_memory_order : Memory.wf [(6, 1), (5, 1)] = false := by decide

/-! ### Every constructor's decoding, a word written out digit by digit (30_encoding R74) -/

theorem test_decode_hlt : decode 0 = .hlt := by decide
theorem test_decode_hltOperand : decode 99 = .hltOperand 99 := by decide
theorem test_decode_add : decode 120 = .add 20 := by decide
theorem test_decode_sub : decode 220 = .sub 20 := by decide
theorem test_decode_sta : decode 330 = .sta 30 := by decide
theorem test_decode_reserved4 : decode 499 = .reserved4 99 := by decide
theorem test_decode_lda : decode 530 = .lda 30 := by decide
theorem test_decode_bra : decode 699 = .bra 99 := by decide
theorem test_decode_brp : decode 750 = .brp 50 := by decide
theorem test_decode_brz : decode 850 = .brz 50 := by decide
theorem test_decode_invalid900 : decode 900 = .invalid900 := by decide
theorem test_decode_inp : decode 901 = .inp := by decide
theorem test_decode_out : decode 902 = .out := by decide
theorem test_decode_invalid9 : decode 903 = .invalid9 3 ∧ decode 922 = .invalid9 22 := by decide
theorem test_table_numbering :
    decodeTableWord 8 0 = some .hlt ∧ decodeTableWord 8 4 = some (.add 0) ∧ decodeTableWord 16 901 = some .inp ∧
      decodeTableWord 16 1000 = none := by decide
theorem test_fetch_word_runs_add : nextIs (step (State.reset.withFetchWord 16 100)) (fun t => t.acc.val == 100) = true := by
  decide
theorem test_fetch_word_runs_inp :
    nextIs (step (State.reset.withFetchWord 16 901)) (fun t => t.z && t.inputTaken == [0] && t.pc == 1) = true := by decide

/-! ### The Arithmetic Unit (95_test_vectors 2.1) -/

theorem test_alu_add : aluAdd 999 1 = (0, true) ∧ aluAdd 499 1 = (500, false) := by decide
theorem test_alu_sub : aluSub 3 5 = (998, false) ∧ aluSub 0 0 = (0, true) := by decide

/-! ### The instructions (95_test_vectors 2.2 to 2.7), one step each -/

theorem test_add_wraps_AD4 :
    nextIs (step (at10 999 120 20 1)) (fun t => t.acc == 0 && t.z && !t.p && t.pc == 11 && t.mar == 20 && t.mdr == 1) =
      true := by decide
theorem test_add_self_AD7 : nextIs (step (at10 5 110 10 110)) (fun t => t.acc == 115 && t.mdr == 110) = true := by decide
theorem test_sub_below_zero_SB2 :
    nextIs (step (at10 3 220 20 5)) (fun t => t.acc == 998 && !t.z && t.p && t.cir == 220) = true := by decide
theorem test_sub_SB5 : nextIs (step (at10 0 220 20 999)) (fun t => t.acc == 1 && !t.z && !t.p) = true := by decide
theorem test_sta_ST1 :
    nextIs (step (at10 123 330 30 7)) (fun t => t.mem.read 30 == 123 && t.mar == 30 && t.mdr == 123 && !t.p) = true := by
  decide
theorem test_sta_zero_after_load_ST4 :
    nextIs (step (at10 0 330 30 7)) (fun t => t.mem == [(10, 330)] && !t.z) = true := by decide
theorem test_lda_LD3 : nextIs (step (at10 0 530 30 500)) (fun t => t.acc == 500 && t.p && !t.z) = true := by decide
theorem test_lda_LD2 : nextIs (step (at10 0 530 30 499)) (fun t => t.acc == 499 && !t.p && !t.z) = true := by decide
theorem test_bra_BA2 : nextIs (step (at10 0 699 30 1)) (fun t => t.pc == 99 && t.mar == 10 && t.mdr == 699) = true := by
  decide
theorem test_brp_BP1 : nextIs (step { at10 998 750 30 1 with p := true }) (fun t => t.pc == 50) = true := by decide
theorem test_brp_BP4 : nextIs (step (at10 0 750 30 1)) (fun t => t.pc == 11) = true := by decide
theorem test_brz_BZ1 : nextIs (step { at10 0 850 30 1 with z := true }) (fun t => t.pc == 50) = true := by decide
theorem test_brz_BZ3 : nextIs (step (at10 0 850 30 1)) (fun t => t.pc == 11) = true := by decide
theorem test_inp_IO4 :
    nextIs (step { at10 5 901 30 1 with inputQueue := [1234] })
      (fun t => t.acc == 234 && t.inputQueue == [] && t.inputTaken == [1234] && t.mdr == 901) = true := by decide
theorem test_inp_holds_IO5 :
    step (at10 5 901 30 1) = .next (at10 5 901 30 1) ∧ stepResult (at10 5 901 30 1) = .hold := ⟨rfl, by decide⟩
theorem test_out_IO6 :
    nextIs (step (at10 10 902 30 1)) (fun t => t.output == [10] && t.acc == 10 && t.mdr == 902) = true := by decide
theorem test_hlt_HL1 :
    nextIs (step (at3 0)) (fun t => t.run == .halted && t.pc == 4 && t.mar == 3 && t.acc == 10) = true := by decide
theorem test_hltOperand_HL2 : nextIs (step (at3 50)) (fun t => t.run == .halted && t.cir == 50 && t.mdr == 50) = true := by
  decide
theorem test_hlt_twice_HL4 : step (after (at3 0)) = .next (after (at3 0)) := rfl
theorem test_reserved4_FT1 :
    nextIs (step (at3 400)) (fun t => t.run == .faulted .unimplementedOpcode && t.pc == 4 && t.cir == 400 && t.mar == 3) =
      true := by decide
theorem test_invalid900_FT3 :
    nextIs (step (at3 900)) (fun t => t.run == .faulted .invalidInstruction && t.cir == 900 && t.pc == 4) = true := by decide
theorem test_invalid9_FT6 :
    nextIs (step (at3 922)) (fun t => t.run == .faulted .invalidInstruction && t.mdr == 922) = true := by decide
theorem test_pc_wraps_FE1 :
    nextIs (step { State.reset with pc := 99, mem := [(99, 512)] }) (fun t => t.pc == 0 && t.mar == 12) = true := by decide

/-! ### The host's operations (95_test_vectors 2.7) -/

theorem test_load_short_LO1 : load (List.replicate 99 0) State.reset = .error .loadRejected := by decide
theorem test_load_range_LO2 : load (1000 :: List.replicate 99 0) State.reset = .error .loadRejected := by decide
theorem test_host_read_HA1 : hostRead 100 State.reset = .error (.addressError 100) := by decide
theorem test_host_write_HA2 : hostWrite 5 1000 State.reset = .error (.valueRangeError 1000) := by decide
theorem test_step_limit_RL1 : runToHalt (some 0) [quietTurn] State.reset = .done .stepLimit 0 State.reset := by decide
theorem test_input_exhausted_IO5 :
    runToHalt none [quietTurn] (at0 901 []) = .done .inputExhausted 0 (at0 901 []) := by decide

/-- The numeric codes of 60_exceptions R281 and R290. -/
theorem test_codes :
    causeCode .unimplementedOpcode = 1 ∧ causeCode .invalidInstruction = 2 ∧ hostErrorCode (.addressError 100) = 3 ∧
      hostErrorCode .loadRejected = 20 ∧ hostErrorCode (.valueRangeError 1000) = 21 ∧
      asmErrorCode (.syntaxError 1 .mnemonic) = 10 ∧ asmErrorCode (.duplicateSymbol ['x'] 2) = 11 ∧
      asmErrorCode (.undefinedSymbol ['x'] 1) = 12 ∧ asmErrorCode (.addressOverflow 3) = 13 := by decide

/-- A wait for input is ended by a value alone: not by a request for cancellation nor by an exhausted source (40_cycle R108:
the wait, then the step). -/
theorem test_wait_goes_on :
    runToHalt none
      [{ cancel := false, arrive := [], exhausted := false }, { cancel := true, arrive := [], exhausted := true }]
      (at0 901 []) = .running 0 (at0 901 []) := by decide

/-- A wait, then a value and a request for cancellation together: the INP cycle is performed, and the request honoured after
it (40_cycle R108). -/
theorem test_cancelled_wait :
    runToHalt none
      [{ cancel := false, arrive := [], exhausted := false }, { cancel := true, arrive := [5], exhausted := false }, quietTurn]
      (at0 901 []) = .done .cancelled 1 (after (at0 901 [5])) := by decide

/-! ### The assembler (95_test_vectors 2.8) -/

/-- The text assembled. -/
def asm (t : String) : Except AsmError Image := assemble t.toList

/-- The first cells of an image, the rest blank. -/
def cells (l : List Word) : Except AsmError Image := .ok (l ++ List.replicate (100 - l.length) 0)

theorem test_assemble_AS1 : asm "LDA nowhere\nHLT" = .error (.undefinedSymbol "nowhere".toList 1) := by decide
theorem test_assemble_AS2 : asm "x DAT 1\nx DAT 2" = .error (.duplicateSymbol ['x'] 2) := by decide
theorem test_assemble_AS4 : asm "ORG 100\nHLT" = .error (.addressOverflow 1) := by decide
theorem test_assemble_AS7 : asm "ORG 99\nDAT 1\nDAT 2" = .error (.addressOverflow 3) := by decide
theorem test_assemble_AS9 : asm "DAT 1000" = .error (.syntaxError 1 .wordLiteral) := by decide
theorem test_assemble_AS10 : asm "LDA 5" = .error (.syntaxError 1 .labelReference) := by decide
theorem test_assemble_AS11 : asm "FOO 5" = .error (.syntaxError 1 .mnemonic) := by decide
theorem test_assemble_AS12 : asm "lda X\nHlt\nX dat 3" = cells [502, 0, 3] := by decide
theorem test_assemble_AS13 : asm "DAT 1\nDAT 2\nORG 0\nDAT 9" = cells [9, 2] := by decide
theorem test_assemble_AS15 : asm "x ORG 5" = .error (.syntaxError 1 .noLabel) := by decide
theorem test_assemble_AS16 : asm "HLT x\nx DAT" = .error (.syntaxError 1 .endOfLine) := by decide
theorem test_assemble_AS17 : asm "# hi\n  \nINP # read\nOUT\nHLT" = cells [901, 902, 0] := by decide
theorem test_assemble_AS18 : asm "BRA end\nend HLT" = cells [601] := by decide
theorem test_assemble_AS19 : asm "LDA x\nX DAT 1" = .error (.undefinedSymbol ['x'] 1) := by decide
theorem test_assemble_AS21 : asm "ORG 99\nx DAT 1\nx DAT 2" = .error (.addressOverflow 3) := by decide
theorem test_assemble_AS23 : asm "five: DAT 5" = cells [5] := by decide

/-! ### Witnesses: states and operands that meet the hypotheses of the obligations, each clause at a boundary of its range -/

theorem witness_DecodeFollowsOpcodeAndOperand :
    ((0 : Addr).val = (0 : Word).val % 100 ∧ (0 : Word).val / 100 = 0) ∧
      ((99 : Addr).val = (99 : Word).val % 100 ∧ (99 : Word).val / 100 = 0) ∧
      ((99 : Addr).val = (199 : Word).val % 100 ∧ (199 : Word).val / 100 = 1) ∧
      ((0 : Addr).val = (200 : Word).val % 100 ∧ (200 : Word).val / 100 = 2) ∧
      ((99 : Addr).val = (399 : Word).val % 100 ∧ (399 : Word).val / 100 = 3) ∧
      ((0 : Addr).val = (400 : Word).val % 100 ∧ (400 : Word).val / 100 = 4) ∧
      ((99 : Addr).val = (599 : Word).val % 100 ∧ (599 : Word).val / 100 = 5) ∧
      ((0 : Addr).val = (600 : Word).val % 100 ∧ (600 : Word).val / 100 = 6) ∧
      ((99 : Addr).val = (799 : Word).val % 100 ∧ (799 : Word).val / 100 = 7) ∧
      ((0 : Addr).val = (800 : Word).val % 100 ∧ (800 : Word).val / 100 = 8) ∧
      ((3 : Addr).val = (903 : Word).val % 100 ∧ (903 : Word).val / 100 = 9) := by decide

theorem witness_DecodeOfEncodeIsIdentity :
    (Instr.hltOperand 1).wf = true ∧ (Instr.hltOperand 99).wf = true ∧ (Instr.invalid9 3).wf = true ∧
      (Instr.invalid9 99).wf = true ∧ (Instr.add 0).wf = true ∧ Instr.inp.wf = true := by decide

theorem witness_AluSubFoldsAndCarries :
    (1 ≤ (1 : Word).val ∧ (999 : Word).val = 1000 - (1 : Word).val) ∧
      (1 ≤ (999 : Word).val ∧ (1 : Word).val = 1000 - (999 : Word).val) := by decide

theorem witness_FetchLoadsWordAndAdvancesPc : ({ State.reset with pc := 99 } : State).pc.val = 99 := by decide

theorem witness_StepRunsDecodedInstruction :
    ((at3 120).run = .ready ∧ decode ((at3 120).mem.read (at3 120).pc) = .add 20) ∧
      ((at0 901 [0]).run = .ready ∧ decode ((at0 901 [0]).mem.read (at0 901 [0]).pc) = .inp ∧
        (at0 901 [0]).inputQueue ≠ []) := by decide

theorem witness_StoppedCoreStaysUntilLoad :
    (after (at3 0)).run ≠ .ready ∧ (after (at3 400)).run ≠ .ready ∧ State.powerOn.run ≠ .ready ∧
      (hostWrite 0 0 (after (at3 400))).isOk = true ∧ (hostWrite 99 999 (after (at3 400))).isOk = true ∧
      (load (List.replicate 100 999) (after (at3 400))).isOk = true := by decide

theorem witness_InpWithoutInputHolds :
    (at0 901 []).run = .ready ∧ decode ((at0 901 []).mem.read (at0 901 []).pc) = .inp ∧ (at0 901 []).inputQueue = [] := by
  decide

theorem witness_StepResultReportsTheStep :
    (step (at3 120) = .next (after (at3 120)) ∧ stepResult (at3 120) = .continued) ∧
      (step (at3 99) = .next (after (at3 99)) ∧ stepResult (at3 99) = .halted) ∧
      (step (at3 499) = .next (after (at3 499)) ∧ stepResult (at3 499) = .fault .unimplementedOpcode) ∧
      (step (at0 901 []) = .next (at0 901 []) ∧ stepResult (at0 901 []) = .hold) :=
  ⟨⟨rfl, by decide⟩, ⟨rfl, by decide⟩, ⟨rfl, by decide⟩, ⟨rfl, by decide⟩⟩

theorem witness_StaStoresAccInOneCell : (at10 123 330 30 7).mem.wf = true ∧ (99 : Addr) ≠ 0 := by decide

/-- Exact flags over ACC = 500 and over ACC = 499. -/
theorem witness_BrpJumpsIfP :
    FlagsExact (after (at10 0 530 30 500)) ∧ 500 ≤ (after (at10 0 530 30 500)).acc.val ∧
      (after (at10 0 530 30 500)).p = true ∧
      FlagsExact (after (at10 0 530 30 499)) ∧ (after (at10 0 530 30 499)).acc.val < 500 ∧
      (after (at10 0 530 30 499)).p = false ∧ FlagsCleared State.reset := by
  unfold FlagsExact FlagsCleared
  decide

/-- Exact flags over ACC = 0 and over ACC = 1. -/
theorem witness_BrzJumpsIfZ :
    FlagsExact (after (at10 7 530 30 0)) ∧ (after (at10 7 530 30 0)).acc.val = 0 ∧ (after (at10 7 530 30 0)).z = true ∧
      FlagsExact (after (at10 7 530 30 1)) ∧ (after (at10 7 530 30 1)).acc.val ≠ 0 ∧
      (after (at10 7 530 30 1)).z = false ∧ FlagsCleared State.reset := by
  unfold FlagsExact FlagsCleared
  decide

theorem witness_InpTakesOneInput :
    (at0 901 [1000, 7]).inputQueue = 1000 :: [7] ∧
      ((at0 901 []).run = .ready ∧ nextInstr (at0 901 []) = .inp ∧ (at0 901 []).inputQueue = []) := by decide

theorem witness_HltHalts :
    (0 : Word).val ≤ 99 ∧ (99 : Word).val ≤ 99 ∧ (at3 99).run = .ready ∧ ((at3 99).mem.read (at3 99).pc).val ≤ 99 ∧
      ((at3 0).mem.read (at3 0).pc).val ≤ 99 := by decide

theorem witness_InvalidNineFaults : 3 ≤ (3 : Addr).val ∧ 3 ≤ (99 : Addr).val := by decide

/-- A performed cycle of each kind of word, ready to be used as the hypothesis `Cycle s t`. -/
theorem witness_Cycle :
    Cycle (at3 120) (after (at3 120)) ∧ Cycle (at3 220) (after (at3 220)) ∧ Cycle (at3 330) (after (at3 330)) ∧
      Cycle (at3 530) (after (at3 530)) ∧ Cycle (at3 699) (after (at3 699)) ∧ Cycle (at3 902) (after (at3 902)) ∧
      Cycle (at0 901 [5]) (after (at0 901 [5])) :=
  ⟨⟨by decide, rfl⟩, ⟨by decide, rfl⟩, ⟨by decide, rfl⟩, ⟨by decide, rfl⟩, ⟨by decide, rfl⟩, ⟨by decide, rfl⟩,
    ⟨by decide, rfl⟩⟩

theorem witness_FlagsChangeOnlyBySetAccOrLoad :
    (step (at3 120) = .next (after (at3 120)) ∧ Enabled (at3 120) ∧ accAffecting (nextInstr (at3 120)) = true) ∧
      (step (at3 330) = .next (after (at3 330)) ∧
        ¬(Enabled (at3 330) ∧ accAffecting (nextInstr (at3 330)) = true)) ∧
      (load (List.replicate 100 0) (at3 0)).isOk = true ∧ (hostWrite 99 999 (at3 0)).isOk = true :=
  ⟨⟨rfl, by decide⟩, ⟨rfl, by decide⟩, by decide, by decide⟩

theorem witness_OnlyStaAndHostWriteChangeCells :
    ((at3 399).mem.wf = true ∧ step (at3 399) = .next (after (at3 399)) ∧
        Enabled (at3 399) ∧ nextInstr (at3 399) = .sta 99 ∧ nextInstr (at3 399) ≠ .sta 98) ∧
      ((hostWrite 99 999 (at3 399)).isOk = true ∧ ((0 : Addr).val : Int) ≠ 99) :=
  ⟨⟨by decide, rfl, by decide⟩, by decide⟩

/-- A taken and an untaken branch of each kind, and a word that is none. -/
theorem witness_PcAfterEachCycle :
    (Cycle (at3 699) (after (at3 699)) ∧ nextInstr (at3 699) = .bra 99) ∧
      (Cycle { at3 700 with p := true } (after { at3 700 with p := true }) ∧
        nextInstr { at3 700 with p := true } = .brp 0) ∧
      (Cycle { at3 899 with z := true } (after { at3 899 with z := true }) ∧
        nextInstr { at3 899 with z := true } = .brz 99) ∧
      (Cycle (at3 700) (after (at3 700)) ∧ nextInstr (at3 700) = .brp 0 ∧ (at3 700).p = false) ∧
      (Cycle (at3 899) (after (at3 899)) ∧ nextInstr (at3 899) = .brz 99 ∧ (at3 899).z = false) ∧
      (Cycle (at3 100) (after (at3 100)) ∧ nextInstr (at3 100) = .add 0) :=
  ⟨⟨⟨by decide, rfl⟩, by decide⟩, ⟨⟨by decide, rfl⟩, by decide⟩, ⟨⟨by decide, rfl⟩, by decide⟩,
    ⟨⟨by decide, rfl⟩, by decide⟩, ⟨⟨by decide, rfl⟩, by decide⟩, ⟨⟨by decide, rfl⟩, by decide⟩⟩

theorem witness_CirMarMdrAfterEachCycle :
    (Cycle (at3 100) (after (at3 100)) ∧ nextInstr (at3 100) = .add 0) ∧
      (Cycle (at3 299) (after (at3 299)) ∧ nextInstr (at3 299) = .sub 99) ∧
      (Cycle (at3 500) (after (at3 500)) ∧ nextInstr (at3 500) = .lda 0) ∧
      (Cycle (at3 399) (after (at3 399)) ∧ nextInstr (at3 399) = .sta 99) ∧
      (Cycle (at3 902) (after (at3 902)) ∧ nextInstr (at3 902) = .out) :=
  ⟨⟨⟨by decide, rfl⟩, by decide⟩, ⟨⟨by decide, rfl⟩, by decide⟩, ⟨⟨by decide, rfl⟩, by decide⟩,
    ⟨⟨by decide, rfl⟩, by decide⟩, ⟨⟨by decide, rfl⟩, by decide⟩⟩

/-- The first and the last word of each range of RunStateAfterEachCycle. -/
theorem witness_RunStateAfterEachCycle :
    (Cycle (at3 0) (after (at3 0)) ∧ Cycle (at3 99) (after (at3 99))) ∧
      (Cycle (at3 100) (after (at3 100)) ∧ Cycle (at3 399) (after (at3 399))) ∧
      (Cycle (at3 400) (after (at3 400)) ∧ Cycle (at3 499) (after (at3 499))) ∧
      (Cycle (at3 500) (after (at3 500)) ∧ Cycle (at3 899) (after (at3 899))) ∧
      (Cycle (at3 900) (after (at3 900)) ∧ Cycle (at0 901 [5]) (after (at0 901 [5]))) ∧
      (Cycle (at3 902) (after (at3 902)) ∧ Cycle (at3 903) (after (at3 903))) ∧ Cycle (at3 999) (after (at3 999)) :=
  ⟨⟨⟨by decide, rfl⟩, ⟨by decide, rfl⟩⟩, ⟨⟨by decide, rfl⟩, ⟨by decide, rfl⟩⟩, ⟨⟨by decide, rfl⟩, ⟨by decide, rfl⟩⟩,
    ⟨⟨by decide, rfl⟩, ⟨by decide, rfl⟩⟩, ⟨⟨by decide, rfl⟩, ⟨by decide, rfl⟩⟩, ⟨⟨by decide, rfl⟩, ⟨by decide, rfl⟩⟩,
    ⟨by decide, rfl⟩⟩

theorem witness_FaultsArePrecise :
    (at3 400).run = .ready ∧ faultOf (decode ((at3 400).mem.read (at3 400).pc)) = some .unimplementedOpcode ∧
      faultOf (decode ((at3 499).mem.read (at3 499).pc)) = some .unimplementedOpcode ∧
      faultOf (decode ((at3 900).mem.read (at3 900).pc)) = some .invalidInstruction ∧
      faultOf (decode ((at3 903).mem.read (at3 903).pc)) = some .invalidInstruction ∧
      faultOf (decode ((at3 999).mem.read (at3 999).pc)) = some .invalidInstruction := by decide

theorem witness_OnlyInpTakesAndOnlyOutGives :
    (step (at0 901 [5]) = .next (after (at0 901 [5])) ∧ Enabled (at0 901 [5]) ∧ nextInstr (at0 901 [5]) = .inp) ∧
      (step (at3 902) = .next (after (at3 902)) ∧ Enabled (at3 902) ∧ nextInstr (at3 902) = .out) ∧
      (step (at3 120) = .next (after (at3 120)) ∧ nextInstr (at3 120) ≠ .inp ∧ nextInstr (at3 120) ≠ .out) :=
  ⟨⟨rfl, by decide⟩, ⟨rfl, by decide⟩, ⟨rfl, by decide⟩⟩

theorem witness_InputIsConsumedInQueueOrder : Host.Core.run core 1 (at0 901 [5, 6]) = .next (after (at0 901 [5, 6])) := rfl

theorem witness_inv_running : (after (at10 0 530 30 500)).Inv :=
  ⟨by decide, .inl (by unfold FlagsExact; decide), trivial⟩

theorem witness_inv_halted : (after (at3 99)).Inv :=
  ⟨by decide, .inl (by unfold FlagsExact; decide), show isHalt (decode (after (at3 99)).cir) = true by decide⟩

theorem witness_inv_faulted : (after (at0 400 [])).Inv :=
  ⟨by decide, .inr (by unfold FlagsCleared; decide),
    show faultOf (decode (after (at0 400 [])).cir) = some .unimplementedOpcode ∧
      (after (at0 400 [])).mdr = (after (at0 400 [])).cir ∧
      (after (at0 400 [])).pc.val = ((after (at0 400 [])).mar.val + 1) % 100 by decide⟩

/-- A running state with exact flags, a Halted one and a Faulted one, each with the invariant and a step. -/
theorem witness_InvariantKeptByEveryStep :
    ((after (at10 0 530 30 500)).Inv ∧ step (after (at10 0 530 30 500)) = .next (after (after (at10 0 530 30 500)))) ∧
      ((after (at3 99)).Inv ∧ step (after (at3 99)) = .next (after (at3 99))) ∧
      ((after (at0 400 [])).Inv ∧ step (after (at0 400 [])) = .next (after (at0 400 []))) :=
  ⟨⟨witness_inv_running, rfl⟩, ⟨witness_inv_halted, rfl⟩, ⟨witness_inv_faulted, rfl⟩⟩

theorem witness_InvariantKeptByHost :
    (load (List.replicate 100 999) (at3 0)).isOk = true ∧ (hostWrite 0 999 (after (at10 0 530 30 500))).isOk = true ∧
      (after (at10 0 530 30 500)).Inv := ⟨by decide, by decide, witness_inv_running⟩

/-- STA into the next cell in sequence, then a cycle of the stored word (95_test_vectors ST3). -/
theorem witness_FetchSeesEveryStore :
    (at10 902 311 30 1).mem.wf = true ∧ Cycle (at10 902 311 30 1) (after (at10 902 311 30 1)) ∧
      nextInstr (at10 902 311 30 1) = .sta 11 ∧ (after (at10 902 311 30 1)).pc = 11 ∧
      Cycle (after (at10 902 311 30 1)) (after (after (at10 902 311 30 1))) ∧
      nextInstr (after (at10 902 311 30 1)) ≠ .sta 11 :=
  ⟨by decide, ⟨by decide, rfl⟩, by decide, by decide, ⟨by decide, rfl⟩, by decide⟩

theorem witness_HistoriesInfluenceNothing : step (at3 902) = .next (after (at3 902)) := rfl

theorem witness_LaterInputInfluencesNothing : Cycle (at0 901 [5]) (after (at0 901 [5])) := ⟨by decide, rfl⟩

theorem witness_CanonicalMemoriesWithEqualCellsAreEqual :
    Memory.wf (Memory.write (Memory.write [] 5 1) 3 2) = true ∧ Memory.wf [(3, 2), (5, 1)] = true ∧
      (∀ a : Addr, Memory.read (Memory.write (Memory.write [] 5 1) 3 2) a = Memory.read [(3, 2), (5, 1)] a) := by decide

theorem witness_HostReadIsBoundsChecked :
    ((0 : Addr).val : Int) = 0 ∧ ((99 : Addr).val : Int) = 99 ∧ ¬((0 : Int) ≤ -1 ∧ (-1 : Int) ≤ 99) ∧
      ¬((0 : Int) ≤ 100 ∧ (100 : Int) ≤ 99) := by decide

theorem witness_HostWriteIsBoundsChecked :
    (at3 120).mem.wf = true ∧ (((99 : Addr).val : Int) = 99 ∧ ((999 : Word).val : Int) = 999) ∧
      (((0 : Addr).val : Int) = 0 ∧ ((0 : Word).val : Int) = 0) ∧ ¬((0 : Int) ≤ 100 ∧ (100 : Int) ≤ 99) ∧
      ((0 : Int) ≤ 99 ∧ (99 : Int) ≤ 99 ∧ ¬((0 : Int) ≤ 1000 ∧ (1000 : Int) ≤ 999)) := by decide

/-- Both out of range: the address 100 meets the second clause of HostWriteIsBoundsChecked, and not the third (log 18). -/
theorem witness_HostWriteIsBoundsChecked_both :
    ¬((0 : Int) ≤ 100 ∧ (100 : Int) ≤ 99) ∧ ¬((0 : Int) ≤ 1000 ∧ (1000 : Int) ≤ 999) ∧
      hostWrite 100 1000 (at3 120) = .error (.addressError 100) := by decide

theorem witness_PowerOnIsHaltedAndZero :
    (hostWrite 99 999 State.powerOn).isOk = true ∧ (load (List.replicate 100 999) State.powerOn).isOk = true := by decide

theorem witness_LoadSetsEveryResetValue :
    (List.replicate 100 (999 : Int)).length = 100 ∧ (∀ n ∈ List.replicate 100 (999 : Int), 0 ≤ n ∧ n ≤ 999) ∧
      (List.replicate 100 (999 : Int))[(99 : Addr).val]? = some 999 := by decide

theorem witness_LoadRefusesMalformedImages :
    ¬((List.replicate 99 (0 : Int)).length = 100 ∧ ∀ n ∈ List.replicate 99 (0 : Int), 0 ≤ n ∧ n ≤ 999) ∧
      ¬((1000 :: List.replicate 99 (0 : Int)).length = 100 ∧ ∀ n ∈ 1000 :: List.replicate 99 (0 : Int), 0 ≤ n ∧ n ≤ 999) ∧
      ¬((-1 :: List.replicate 99 (0 : Int)).length = 100 ∧ ∀ n ∈ -1 :: List.replicate 99 (0 : Int), 0 ≤ n ∧ n ≤ 999) := by
  decide

theorem witness_RunLoopRespectsStepLimit :
    runToHalt (some 1) [quietTurn, quietTurn] (at3 120) = .done .stepLimit 1 (after (at3 120)) ∧
      runToHalt (some 1) [quietTurn] (at3 120) = .running 1 (after (at3 120)) ∧
      runToHalt (some 1) [quietTurn, quietTurn] (at3 0) = .done .halted 1 (after (at3 0)) := by decide

/-- The turns of an interactive source: one waits, the next brings two values. -/
def lateInput : List Turn :=
  [ { cancel := false, arrive := [], exhausted := false }, { cancel := false, arrive := [7, 8], exhausted := false } ]

/-- Each status, with an interactive source among them, and a run that is still going on. -/
theorem witness_RunLoopIsRepeatedSteps :
    runToHalt none (lateInput ++ [quietTurn, quietTurn]) (at0 901 []) = .done .halted 2 (after (after (at0 901 [7, 8]))) ∧
      runToHalt none lateInput (at0 901 []) = .running 1 (after (at0 901 [7, 8])) ∧
      runToHalt none [quietTurn, quietTurn] (at3 400) = .done (.faulted .unimplementedOpcode) 1 (after (at3 400)) ∧
      runToHalt none [{ cancel := true, arrive := [7], exhausted := false }] (at0 901 []) = .done .cancelled 0 (at0 901 [7]) ∧
      runToHalt (some 0) [quietTurn] (at3 120) = .done .stepLimit 0 (at3 120) ∧
      runToHalt none [quietTurn] (at0 901 []) = .done .inputExhausted 0 (at0 901 []) := by decide

/-- One cycle that stops the core, Halted or Faulted, from an enabled state. -/
theorem witness_RunLoopIsRepeatedSteps_stop :
    (Host.Core.run core 1 (at3 0) = .next (after (at3 0)) ∧ (after (at3 0)).run = .halted) ∧
      (Host.Core.run core 1 (at3 499) = .next (after (at3 499)) ∧
        (after (at3 499)).run = .faulted .unimplementedOpcode) ∧
      (∀ (m : Nat) (u : State), m < 1 → Host.Core.run core m (at3 0) = .next u → Enabled u) ∧
      (∀ (m : Nat) (u : State), m < 1 → Host.Core.run core m (at3 499) = .next u → Enabled u) := by
  refine ⟨⟨rfl, rfl⟩, ⟨rfl, rfl⟩, fun m u hm h => ?_, fun m u hm h => ?_⟩ <;>
  · obtain rfl : m = 0 := by omega
    cases h
    decide

/-- A loop that waits at two turns, the second requesting cancellation, before a value arrives. -/
theorem witness_RunLoopIsRepeatedSteps_wait :
    WaitsThrough (some 1) 0 (at0 901 []) { cancel := false, arrive := [], exhausted := false }
        [{ cancel := true, arrive := [], exhausted := true }] ∧
      ({ cancel := false, arrive := [7], exhausted := false } : Turn).arrive ≠ [] := by
  refine ⟨⟨by decide, by decide, by decide, by decide, by decide, by decide, by decide, by decide⟩, by decide⟩

theorem witness_CancellationLeavesCoreReady_wait :
    WaitsThrough none 0 (at0 901 []) { cancel := false, arrive := [], exhausted := false } [] ∧
      ({ cancel := true, arrive := [5], exhausted := false } : Turn).arrive ≠ [] ∧
      cancelAsked ([] ++ [{ cancel := true, arrive := [5], exhausted := false }]) = true := by
  refine ⟨⟨by decide, by decide, by decide, by decide, by decide, by decide, by decide, by decide⟩, by decide, by decide⟩

theorem witness_CancellationLeavesCoreReady :
    LoopPoint.start.waiting = false ∧ ({ waiting := false, cancel := true } : LoopPoint).cancel = true ∧
    (at3 120).run = .ready ∧ ({ cancel := true, arrive := [7], exhausted := false } : Turn).cancel = true ∧
      ({ cancel := true, arrive := [7], exhausted := false } : Turn).arrive = [7] ∧
      ({ cancel := true, arrive := [], exhausted := false } : Turn).cancel = true ∧
      ({ cancel := true, arrive := [], exhausted := false } : Turn).arrive = [] := by decide

theorem witness_ParsedStatementsAreWellFormed :
    parse "x: lda X # one".toList = .ok [{ label := some ['x'], mnemonic := .lda, operand := .symbol ['X'], line := 1 }] := by
  decide

theorem witness_AssembledImageLoads : asm "BRA end\nend HLT" = cells [601] := by decide

theorem witness_EmittedWordsDecodeToTheirMnemonic :
    cellOf [(['x'], 99)] { label := none, mnemonic := .brz, operand := .symbol ['x'], line := 1 } = .ok 899 ∧
      (([(['x'], 99)] : SymbolTable).lookup ['x'] = some 99) ∧
      cellOf [] { label := none, mnemonic := .inp, operand := .absent, line := 1 } = .ok 901 ∧
      cellOf [] { label := none, mnemonic := .out, operand := .absent, line := 1 } = .ok 902 ∧
      cellOf [] { label := none, mnemonic := .hlt, operand := .absent, line := 1 } = .ok 0 ∧
      cellOf [] { label := none, mnemonic := .dat, operand := .literal 999, line := 1 } = .ok 999 ∧
      cellOf [] { label := none, mnemonic := .dat, operand := .absent, line := 1 } = .ok 0 := by decide

/-- A labelled statement, an ORG and an unlabelled statement. -/
def source3 : List Statement :=
  [ { label := some ['x'], mnemonic := .dat, operand := .literal 1, line := 1 },
    { label := none, mnemonic := .org, operand := .literal 0, line := 2 },
    { label := none, mnemonic := .dat, operand := .literal 9, line := 3 } ]

/-- The state of pass 1 after them: both data statements stand at address 0. -/
def placed3 : AsmState :=
  { lc := 1
    sym := [(['x'], 0)]
    placed :=
      [ ({ label := some ['x'], mnemonic := .dat, operand := .literal 1, line := 1 }, 0),
        ({ label := none, mnemonic := .dat, operand := .literal 9, line := 3 }, 0) ] }

/-- `ORG 50` and a DAT: the statement after the ORG, at position 0, with the counter at 50 before it (95_test_vectors AS3). -/
theorem witness_PassOneBuildsUniqueLabels :
    pass1 source3 = .ok placed3 ∧
      (let o : Statement := { label := none, mnemonic := .org, operand := .literal 50, line := 1 }
       let v : Statement := { label := some ['v'], mnemonic := .dat, operand := .literal 7, line := 2 }
       pass1 [o, v] = .ok { lc := 51, sym := [(['v'], 50)], placed := [(v, 50)] } ∧
         [o, v] = [o] ++ v :: [] ∧ v.mnemonic ≠ .org ∧ counterFrom 0 [o] = 50 ∧ (occupying [o]).length = 0) := by decide

/-- Each clause of PassOneTakesOneStatementMore, after a row that leaves the counter at 99 or 100 with the label x bound. -/
theorem witness_PassOneTakesOneStatementMore :
    let g : Statement := { label := none, mnemonic := .org, operand := .literal 98, line := 1 }
    let x : Statement := { label := some ['x'], mnemonic := .dat, operand := .absent, line := 2 }
    let y : Statement := { label := some ['y'], mnemonic := .hlt, operand := .absent, line := 3 }
    let h : Statement := { label := none, mnemonic := .hlt, operand := .absent, line := 3 }
    let o : Statement := { label := none, mnemonic := .org, operand := .literal 99, line := 3 }
    let big : Statement := { label := none, mnemonic := .org, operand := .literal 100, line := 3 }
    (∃ st, pass1 [g, x] = .ok st ∧ st.lc = 99 ∧ st.sym.lookup ['x'] = some 98 ∧ st.sym.lookup ['y'] = none ∧
      (99 : Addr).val = st.lc) ∧
      (∃ st, pass1 [g, x, h] = .ok st ∧ 99 < st.lc) ∧
      (o.mnemonic = .org ∧ o.operand = .literal 99) ∧ (big.mnemonic = .org ∧ big.operand = .literal 100) ∧
      (x.mnemonic ≠ .org ∧ x.label = some ['x']) ∧ (y.mnemonic ≠ .org ∧ y.label = some ['y']) ∧
      (h.mnemonic ≠ .org ∧ h.label = none) :=
  ⟨⟨_, rfl, by decide⟩, ⟨_, rfl, by decide⟩, by decide⟩

theorem witness_LastStatementOfACellWins :
    pass2 placed3 = cells [9] ∧ (1 : Addr) ∉ placed3.placed.map Prod.snd ∧
      cellOf placed3.sym { label := none, mnemonic := .dat, operand := .literal 9, line := 3 } = .ok 9 := by decide

theorem witness_BackEndRaisesThreeErrorKinds :
    let x : Statement := { label := some ['x'], mnemonic := .dat, operand := .absent, line := 1 }
    let o : Statement := { label := none, mnemonic := .org, operand := .literal 100, line := 2 }
    let u : Statement := { label := none, mnemonic := .lda, operand := .symbol ['y'], line := 3 }
    (∀ s ∈ [x, o, u], s.wf = true) ∧ pass1 [x, x] = .error (.duplicateSymbol ['x'] 1) ∧
      pass1 [o] = .error (.addressOverflow 2) ∧
      pass1 [u] = .ok { lc := 1, sym := [], placed := [(u, 0)] } ∧
      pass2 { lc := 1, sym := [], placed := [(u, 0)] } = .error (.undefinedSymbol ['y'] 3) := by decide

/-- A forward reference whose symbol is bound. -/
theorem witness_BackEndRaisesThreeErrorKinds_bound :
    let u : Statement := { label := none, mnemonic := .lda, operand := .symbol ['y'], line := 1 }
    let y : Statement := { label := some ['y'], mnemonic := .dat, operand := .absent, line := 2 }
    (∀ s ∈ [u, y], s.wf = true) ∧ pass1 [u, y] = .ok { lc := 2, sym := [(['y'], 1)], placed := [(u, 0), (y, 1)] } ∧
      SymbolsBound [(['y'], 1)] [(u, 0), (y, 1)] := by
  refine ⟨by decide, by decide, fun c hc l hl => ?_⟩
  rcases List.mem_cons.mp hc with rfl | hc
  · cases hl; exact ⟨1, by decide⟩
  · rcases List.mem_singleton.mp hc with rfl; cases hl

/-- Tokens that meet each clause of LinesOfTheGrammarAreAccepted, DAT at its largest literal. -/
theorem witness_LinesOfTheGrammarAreAccepted :
    tokensOf "  # x".toList = [] ∧
      (mnemonicOf "Dat".toList = some .dat ∧ standsAlone .dat = true ∧ tokensOf "Dat".toList = ["Dat".toList]) ∧
      (mnemonicOf "brz".toList = some .brz ∧ takesReference .brz = true ∧ isLabelName "x_1".toList = true ∧
        tokensOf "brz\tx_1#".toList = ["brz".toList, "x_1".toList]) ∧
      (literalOf "999".toList = some 999 ∧ tokensOf "Dat 999".toList = ["Dat".toList, "999".toList]) ∧
      (mnemonicOf "ORG".toList = some .org ∧ literalOf "100".toList = some 100 ∧
        tokensOf "ORG 100".toList = ["ORG".toList, "100".toList]) ∧
      (mnemonicOf "five:".toList = none ∧ labelOf "five:".toList = some "five".toList ∧
        tokensOf "five: Dat".toList = ["five:".toList, "Dat".toList] ∧
        tokensOf "five: Dat 999".toList = ["five:".toList, "Dat".toList, "999".toList] ∧
        tokensOf "five: brz x_1".toList = ["five:".toList, "brz".toList, "x_1".toList]) := by decide

theorem witness_SequentialProgramsFitHundredCells :
    let d : Statement := { label := none, mnemonic := .dat, operand := .absent, line := 1 }
    (∀ s ∈ List.replicate 101 d, s.mnemonic ≠ .org ∧ s.label = none) ∧ (List.replicate 100 d).length ≤ 100 ∧
      (List.replicate 101 d)[100]? = some d := by decide

end Sys2Proof.Tests
end

section
/-! SUPPORT. What the execute phase and a step can do, said once: every proof about a cycle below is a case analysis of
`Executes`, which `exec_eq_next_iff` and `step_eq_next_iff` tie to `exec` and `step`. -/

namespace Sys2Proof.Machine

/-- The instruction reads cell `a` into ACC, and `v` is the number it computes (41_arithmetic R123, R124; 42_load_store
R141). -/
def ReadsIntoAcc (s : State) (i : Instr) (a : Addr) (v : Nat) : Prop :=
  (i = .add a ∧ v = (aluAdd s.acc (s.mem.read a)).1.val) ∨
    (i = .sub a ∧ v = (aluSub s.acc (s.mem.read a)).1.val) ∨ (i = .lda a ∧ v = (s.mem.read a).val)

/-- The instruction is a branch to `a` that is taken (43_branch R160 to R162). -/
def BranchTaken (s : State) (i : Instr) (a : Addr) : Prop :=
  i = .bra a ∨ (i = .brp a ∧ s.p = true) ∨ (i = .brz a ∧ s.z = true)

/-- The instruction is a conditional branch to `a` whose flag is clear (43_branch R161, R162). -/
def BranchPassed (s : State) (i : Instr) (a : Addr) : Prop :=
  (i = .brp a ∧ s.p = false) ∨ (i = .brz a ∧ s.z = false)

/-- What the execute phase of an instruction makes of the state fetch left, by the shared operation it performs (40_cycle
R103). An INP with no value offered makes nothing of it. -/
inductive Executes (s : State) : Instr → State → Prop
  | halts {i : Instr} (h : isHalt i = true) : Executes s i (halt s)
  | faults {i : Instr} {c : Cause} (h : faultOf i = some c) : Executes s i (raise c s)
  | readsIntoAcc {i : Instr} {a : Addr} {v : Nat} (h : ReadsIntoAcc s i a v) :
      Executes s i (setAcc v (readOperand a s))
  | stores (a : Addr) : Executes s (.sta a) (writeOperand a s)
  | jumps {i : Instr} {a : Addr} (h : BranchTaken s i a) : Executes s i (jump a s)
  | passes {i : Instr} {a : Addr} (h : BranchPassed s i a) : Executes s i s
  | takesInput {v : Nat} {rest : List Nat} (h : s.inputQueue = v :: rest) :
      Executes s .inp (setAcc v (takeInput v rest s))
  | givesOutput : Executes s .out (putOutput s.acc s)

theorem exec_of_isHalt {i : Instr} (h : isHalt i = true) (s : State) : exec i s = .next (halt s) := by
  cases i with
  | hlt | hltOperand => rfl
  | _ => cases h

theorem exec_of_faultOf {i : Instr} {c : Cause} (h : faultOf i = some c) (s : State) :
    exec i s = .next (raise c s) := by
  cases i with
  | reserved4 | invalid900 | invalid9 => cases h; rfl
  | _ => cases h

theorem Executes.exec_eq {s t : State} {i : Instr} (h : Executes s i t) : exec i s = .next t := by
  cases h with
  | halts h => exact exec_of_isHalt h s
  | faults h => exact exec_of_faultOf h s
  | readsIntoAcc h => obtain ⟨rfl, rfl⟩ | ⟨rfl, rfl⟩ | ⟨rfl, rfl⟩ := h <;> rfl
  | stores a => exact exec_sta a s
  | jumps h =>
    obtain rfl | ⟨rfl, hp⟩ | ⟨rfl, hz⟩ := h
    · exact exec_bra _ s
    · rw [exec_brp, if_pos hp]
    · rw [exec_brz, if_pos hz]
  | passes h =>
    obtain ⟨rfl, hp⟩ | ⟨rfl, hz⟩ := h
    · simp [exec_brp, hp]
    · simp [exec_brz, hz]
  | takesInput h => exact exec_inp_offered h
  | givesOutput => exact exec_out s

/-- Every instruction has a meaning, but an INP that is offered no value. -/
theorem exists_executes {s : State} {i : Instr} (h : i = .inp → s.inputQueue ≠ []) : ∃ t, Executes s i t := by
  cases i with
  | hlt | hltOperand => exact ⟨_, .halts rfl⟩
  | reserved4 | invalid900 | invalid9 => exact ⟨_, .faults rfl⟩
  | add => exact ⟨_, .readsIntoAcc (.inl ⟨rfl, rfl⟩)⟩
  | sub => exact ⟨_, .readsIntoAcc (.inr (.inl ⟨rfl, rfl⟩))⟩
  | lda => exact ⟨_, .readsIntoAcc (.inr (.inr ⟨rfl, rfl⟩))⟩
  | sta a => exact ⟨_, .stores a⟩
  | bra => exact ⟨_, .jumps (.inl rfl)⟩
  | brp =>
    cases hp : s.p with
    | true => exact ⟨_, .jumps (.inr (.inl ⟨rfl, hp⟩))⟩
    | false => exact ⟨_, .passes (.inl ⟨rfl, hp⟩)⟩
  | brz =>
    cases hz : s.z with
    | true => exact ⟨_, .jumps (.inr (.inr ⟨rfl, hz⟩))⟩
    | false => exact ⟨_, .passes (.inr ⟨rfl, hz⟩)⟩
  | inp =>
    obtain ⟨v, rest, hq⟩ := List.exists_cons_of_ne_nil (h rfl)
    exact ⟨_, .takesInput hq⟩
  | out => exact ⟨_, .givesOutput⟩

theorem exec_eq_next_iff {s t : State} {i : Instr} : exec i s = .next t ↔ Executes s i t := by
  refine ⟨fun h => ?_, Executes.exec_eq⟩
  have hq : i = .inp → s.inputQueue ≠ [] := by
    rintro rfl hq
    rw [exec_inp_waiting hq] at h
    cases h
  obtain ⟨u, hu⟩ := exists_executes hq
  have htu : t = u := Host.Outcome.next.inj (h.symm.trans hu.exec_eq)
  exact htu ▸ hu

theorem Executes.unique {s t u : State} {i : Instr} (ht : Executes s i t) (hu : Executes s i u) : t = u :=
  Host.Outcome.next.inj (ht.exec_eq.symm.trans hu.exec_eq)

theorem enabled_iff (s : State) : Enabled s ↔ s.run = .ready ∧ holds s = false := by
  rw [Enabled, ← holds_eq_true, Bool.not_eq_true]

/-- Everything a step can do: nothing where no cycle can be performed, else the execute phase after fetch. -/
theorem step_eq_next_iff {s t : State} :
    step s = .next t ↔ (¬Enabled s ∧ t = s) ∨ (Enabled s ∧ Executes (fetch s) (nextInstr s) t) := by
  rcases step_cases s with ⟨hs, h⟩ | ⟨hr, hh, h⟩
  · have he : ¬Enabled s := by
      rw [enabled_iff]
      rintro ⟨hr, hh⟩
      simp [hr, hh] at hs
    simp [h, he, eq_comm]
  · have he : Enabled s := (enabled_iff s).mpr ⟨hr, hh⟩
    rw [h]
    exact exec_eq_next_iff.trans
      ⟨fun hx => .inr ⟨he, hx⟩, fun hx => hx.elim (fun hn => absurd he hn.1) And.right⟩

theorem Cycle.executes {s t : State} (h : Cycle s t) : Executes (fetch s) (nextInstr s) t := by
  obtain ⟨he, hst⟩ := h
  exact (step_eq_next_iff.mp hst).elim (fun hn => absurd he hn.1) And.right

end Sys2Proof.Machine
end

section
/-! SUPPORT. What the execute phase does to one part of the state at a time: memory, ACC with the flags, PC, CIR, MAR and
MDR, and the run-state. -/

namespace Sys2Proof.Machine

/-- `set_acc` leaves the flags as the accumulator gives them (10_state R28). -/
theorem flagsExact_setAcc (v : Nat) (s : State) : FlagsExact (setAcc v s) :=
  ⟨zFlag_eq_true _, pFlag_eq_true _⟩

theorem SameAccFlags.refl (s : State) : SameAccFlags s s := ⟨rfl, rfl, rfl⟩

theorem accAffecting_of_isHalt {i : Instr} (h : isHalt i = true) : accAffecting i = false := by
  cases i with
  | hlt | hltOperand => rfl
  | _ => cases h

theorem accAffecting_of_faultOf {i : Instr} {c : Cause} (h : faultOf i = some c) : accAffecting i = false := by
  cases i with
  | reserved4 | invalid900 | invalid9 => rfl
  | _ => cases h

namespace Executes

variable {s t : State} {i : Instr}

theorem mem_wf (h : Executes s i t) (hm : s.mem.wf = true) : t.mem.wf = true := by
  cases h with
  | stores a => exact Memory.wf_write hm a s.acc
  | _ => exact hm

/-- ACC and the flags: exact after an ACC-affecting instruction, untouched by every other (10_state R29). -/
theorem accFlags (h : Executes s i t) :
    (accAffecting i = true ∧ FlagsExact t) ∨ (accAffecting i = false ∧ SameAccFlags s t) := by
  cases h with
  | halts h => exact .inr ⟨accAffecting_of_isHalt h, .refl s⟩
  | faults h => exact .inr ⟨accAffecting_of_faultOf h, .refl s⟩
  | readsIntoAcc h => obtain ⟨rfl, -⟩ | ⟨rfl, -⟩ | ⟨rfl, -⟩ := h <;> exact .inl ⟨rfl, flagsExact_setAcc _ _⟩
  | stores a => exact .inr ⟨rfl, .refl s⟩
  | jumps h => obtain rfl | ⟨rfl, -⟩ | ⟨rfl, -⟩ := h <;> exact .inr ⟨rfl, .refl s⟩
  | passes h => obtain ⟨rfl, -⟩ | ⟨rfl, -⟩ := h <;> exact .inr ⟨rfl, .refl s⟩
  | takesInput h => exact .inl ⟨rfl, flagsExact_setAcc _ _⟩
  | givesOutput => exact .inr ⟨rfl, .refl s⟩

theorem pc_of_branchTaken {a : Addr} (h : Executes s i t) (hb : BranchTaken s i a) : t.pc = a := by
  rw [h.unique (.jumps hb), jump_pc]

theorem pc_of_not_branchTaken (h : Executes s i t) (hb : ∀ a, ¬BranchTaken s i a) : t.pc = s.pc := by
  cases h with
  | jumps h => exact absurd h (hb _)
  | _ => rfl

/-- No execute phase writes CIR (10_state R25). -/
theorem cir_eq (h : Executes s i t) : t.cir = s.cir := by
  cases h <;> rfl

theorem mar_mdr_of_readsIntoAcc {a : Addr} {v : Nat} (h : Executes s i t) (hr : ReadsIntoAcc s i a v) :
    t.mar = a ∧ t.mdr = s.mem.read a := by
  rw [h.unique (.readsIntoAcc hr)]
  exact ⟨rfl, rfl⟩

theorem mar_mdr_of_sta {a : Addr} (h : Executes s (.sta a) t) : t.mar = a ∧ t.mdr = s.acc := by
  rw [h.unique (.stores a)]
  exact ⟨rfl, rfl⟩

/-- An instruction that transfers no cell leaves MAR and MDR as fetch left them (10_state R31). -/
theorem mar_mdr_of_no_operand (h : Executes s i t) (hr : ∀ a v, ¬ReadsIntoAcc s i a v) (hs : ∀ a, i ≠ .sta a) :
    t.mar = s.mar ∧ t.mdr = s.mdr := by
  cases h with
  | readsIntoAcc h => exact absurd h (hr _ _)
  | stores a => exact absurd rfl (hs a)
  | _ => exact ⟨rfl, rfl⟩

end Executes

end Sys2Proof.Machine
end

section
/-! The invariant of the machine (O37, O36). -/

namespace Sys2Proof.Machine

/-- A running core has no stop to explain. -/
theorem stopExplained_of_ready {s : State} (h : s.run = .ready) : StopExplained s := by
  unfold StopExplained
  rw [h]
  trivial

theorem FlagsCoherent.of_sameAccFlags {s t : State} (hs : FlagsCoherent s) (h : SameAccFlags s t) :
    FlagsCoherent t := by
  obtain ⟨hacc, hz, hp⟩ := h
  unfold FlagsCoherent FlagsExact FlagsCleared
  rw [hacc, hz, hp]
  exact hs

theorem Executes.flagsCoherent {s t : State} {i : Instr} (h : Executes s i t) (hs : FlagsCoherent s) :
    FlagsCoherent t :=
  h.accFlags.elim (fun hx => .inl hx.2) (fun hx => hs.of_sameAccFlags hx.2)

/-- A stop is explained by the word fetch left in CIR: only HLT halts and only a faulting word faults, and both leave every
register as fetch left it (45_control R200, 60_exceptions R285). -/
theorem Executes.stopExplained {s t : State} (h : Executes (fetch s) (nextInstr s) t) (hr : s.run = .ready) :
    StopExplained t := by
  generalize hi : nextInstr s = i at h
  cases h with
  | halts h => exact (congrArg isHalt hi).trans h
  | faults h => exact ⟨(congrArg faultOf hi).trans h, rfl, Addr.val_ofNat _⟩
  | _ => exact stopExplained_of_ready hr

/-- Settles O37: both states have no cell listed and cleared flags, and the halted one has 000 in CIR. -/
theorem invariantHoldsAtReset : Obligations.InvariantHoldsAtReset := by
  have hflags : ∀ s : State, s.z = false → s.p = false → s.acc.val = 0 → FlagsCoherent s :=
    fun s hz hp hacc => .inr ⟨hz, hp, hacc⟩
  refine ⟨⟨rfl, hflags _ rfl rfl rfl, stopExplained_of_ready rfl⟩, ⟨rfl, hflags _ rfl rfl rfl, ?_⟩⟩
  show isHalt (decode 0) = true
  decide

/-- Settles O36: a step that performs no cycle answers the same state; in a cycle each part of the invariant is kept by the
execute phase on the fetched state. -/
theorem invariantKeptByEveryStep : Obligations.InvariantKeptByEveryStep := by
  intro s t hs hst
  rcases step_eq_next_iff.mp hst with ⟨-, rfl⟩ | ⟨⟨hr, -⟩, he⟩
  · exact hs
  · obtain ⟨hmem, hflags, -⟩ := hs
    exact ⟨he.mem_wf hmem, he.flagsCoherent hflags, he.stopExplained hr⟩

end Sys2Proof.Machine
end

section
/-! ACC and the flags (O9, O28). -/

namespace Sys2Proof.Machine

/-- Settles O9: `setAcc` updates three fields and no other. -/
theorem setAccWritesAccAndFlagsOnly : Obligations.SetAccWritesAccAndFlagsOnly :=
  fun v s => ⟨Word.val_ofNat v, flagsExact_setAcc v s, rfl, ⟨rfl, rfl, rfl⟩, ⟨rfl, rfl⟩, ⟨rfl, rfl, rfl⟩⟩

/-- A step: exact flags where it performs a cycle of an ACC-affecting instruction, else ACC and the flags as before. -/
theorem step_accFlags {s t : State} (h : step s = .next t) :
    (Enabled s ∧ accAffecting (nextInstr s) = true → FlagsExact t) ∧
      (¬(Enabled s ∧ accAffecting (nextInstr s) = true) → SameAccFlags s t) := by
  rcases step_eq_next_iff.mp h with ⟨hn, rfl⟩ | ⟨he, hx⟩
  · exact ⟨fun ha => absurd ha.1 hn, fun _ => .refl t⟩
  · rcases hx.accFlags with ⟨ha, hf⟩ | ⟨ha, hf⟩
    · exact ⟨fun _ => hf, fun hn => absurd ⟨he, ha⟩ hn⟩
    · exact ⟨fun hx => by simp [ha] at hx, fun _ => hf⟩

/-- Settles O28: the step by `step_accFlags`, the host's operations by what they write. -/
theorem flagsChangeOnlyBySetAccOrLoad : Obligations.FlagsChangeOnlyBySetAccOrLoad := by
  refine ⟨fun s t => step_accFlags, fun image s t h => ?_, fun n v s t h => ?_, fun vs s => ⟨rfl, rfl, rfl⟩⟩
  · obtain ⟨-, rfl⟩ := load_ok h
    exact ⟨rfl, rfl, rfl⟩
  · obtain ⟨-, -, rfl⟩ := hostWrite_ok h
    exact ⟨rfl, rfl, rfl⟩

end Sys2Proof.Machine
end

section
/-! The registers after a performed cycle (O30, O31). -/

namespace Sys2Proof.Machine

/-- Settles O30: a taken branch loads PC with its operand, every other execute phase leaves the PC that fetch advanced. -/
theorem pcAfterEachCycle : Obligations.PcAfterEachCycle := by
  intro s t hc
  have he := hc.executes
  refine ⟨fun a h => he.pc_of_branchTaken (.inl h), fun a h => he.pc_of_branchTaken (.inr (.inl h)),
    fun a h => he.pc_of_branchTaken (.inr (.inr h)), fun h => ?_⟩
  have hnot : ∀ a, ¬BranchTaken (fetch s) (nextInstr s) a := by
    intro a hb
    obtain ⟨hbra, hbrp, hbrz⟩ := h a
    rcases hb with hi | ⟨hi, hp⟩ | ⟨hi, hz⟩
    · exact hbra hi
    · exact absurd hp (by simp [hbrp hi])
    · exact absurd hz (by simp [hbrz hi])
  rw [he.pc_of_not_branchTaken hnot]
  exact Addr.val_ofNat _

/-- Settles O31: CIR is fetch's, MAR and MDR the operand's where a cell is transferred and else fetch's. -/
theorem cirMarMdrAfterEachCycle : Obligations.CirMarMdrAfterEachCycle := by
  intro s t hc
  have he := hc.executes
  refine ⟨he.cir_eq, fun a h => ?_, fun a h => ?_, fun h => ?_⟩
  · rcases h with h | h | h
    · exact he.mar_mdr_of_readsIntoAcc (.inl ⟨h, rfl⟩)
    · exact he.mar_mdr_of_readsIntoAcc (.inr (.inl ⟨h, rfl⟩))
    · exact he.mar_mdr_of_readsIntoAcc (.inr (.inr ⟨h, rfl⟩))
  · rw [h] at he
    exact he.mar_mdr_of_sta
  · refine he.mar_mdr_of_no_operand (fun a v hr => ?_) (fun a => ?_) <;> obtain ⟨hadd, hsub, hlda, hsta⟩ := h a
    · rcases hr with ⟨hi, -⟩ | ⟨hi, -⟩ | ⟨hi, -⟩
      · exact hadd hi
      · exact hsub hi
      · exact hlda hi
    · exact hsta

end Sys2Proof.Machine
end

section
/-! The I/O histories (O40). -/

namespace Sys2Proof.Machine

/-- The state with earlier entries in front of both histories (10_state R35). -/
def withEarlier (h : List Nat) (o : List Word) (s : State) : State :=
  { s with inputTaken := h ++ s.inputTaken, output := o ++ s.output }

/-- Every execute phase does the same with earlier entries in the histories, since none reads them. -/
theorem executes_withEarlier {s t : State} {i : Instr} (he : Executes s i t) (h : List Nat) (o : List Word) :
    Executes (withEarlier h o s) i (withEarlier h o t) := by
  cases he with
  | halts hi => exact .halts hi
  | faults hi => exact .faults hi
  | readsIntoAcc hi => exact .readsIntoAcc hi
  | stores a => exact .stores a
  | jumps hi => exact .jumps hi
  | passes hi => exact .passes hi
  | @takesInput v rest hq =>
    have hcomm : withEarlier h o (setAcc v (takeInput v rest s)) =
        setAcc v (takeInput v rest (withEarlier h o s)) := by
      simp [withEarlier, setAcc, takeInput]
    rw [hcomm]
    exact .takesInput hq
  | givesOutput =>
    have hcomm : withEarlier h o (putOutput s.acc s) =
        putOutput s.acc (withEarlier h o s) := by
      simp [withEarlier, putOutput]
    rw [hcomm]
    exact .givesOutput

/-- Settles O40: whether a cycle starts, what is fetched and what the execute phase does read no history. -/
theorem historiesInfluenceNothing : Obligations.HistoriesInfluenceNothing := by
  intro s t h o hst
  show step (withEarlier h o s) = .next (withEarlier h o t)
  rcases step_eq_next_iff.mp hst with ⟨hn, rfl⟩ | ⟨hen, he⟩
  · exact step_eq_next_iff.mpr (.inl ⟨hn, rfl⟩)
  · exact step_eq_next_iff.mpr (.inr ⟨hen, executes_withEarlier he h o⟩)

end Sys2Proof.Machine
end

section
/-! Memory and the host's `load` (O42, O45, O47, O48). -/

namespace Sys2Proof.Machine

/-- The first listed cell of one memory does not lie below the first of another that reads the same: the other would read
blank there, and no listed cell is blank. -/
theorem Memory.not_head_lt {a b : Addr} {v w : Word} {m n : Memory} (hm : Memory.wf ((a, v) :: m) = true)
    (hn : Memory.wf ((b, w) :: n) = true)
    (h : Memory.read ((a, v) :: m) a = Memory.read ((b, w) :: n) a) : ¬a < b := by
  intro hab
  obtain ⟨hv, -, -⟩ := Memory.wf_cons.mp hm
  obtain ⟨-, hb, -⟩ := Memory.wf_cons.mp hn
  have hblank : Memory.read ((b, w) :: n) a = Memory.blank := by
    refine Memory.read_below fun c hc => ?_
    rcases List.mem_cons.mp hc with rfl | hc
    · exact hab
    · exact lt_trans hab (hb c hc)
  rw [hblank, Memory.read_cons, if_pos rfl] at h
  exact hv h

/-- A memory in canonical form that lists a cell does not read as one that lists none. -/
theorem Memory.read_cons_ne_read_nil {a : Addr} {v : Word} {m : Memory} (hm : Memory.wf ((a, v) :: m) = true) :
    Memory.read ((a, v) :: m) a ≠ Memory.read [] a := by
  rw [Memory.read_cons, if_pos rfl]
  exact (Memory.wf_cons.mp hm).1

/-- Settles O42, by induction on both lists: equal reads force equal first addresses, then equal first words, then equal
reads of the rests. -/
theorem canonicalMemoriesWithEqualCellsAreEqual : Obligations.CanonicalMemoriesWithEqualCellsAreEqual := by
  intro m
  induction m with
  | nil =>
    rintro (_ | ⟨⟨b, w⟩, n⟩) - hn h
    · rfl
    · exact absurd (h b).symm (Memory.read_cons_ne_read_nil hn)
  | cons c m ih =>
    obtain ⟨a, v⟩ := c
    rintro (_ | ⟨⟨b, w⟩, n⟩) hm hn h
    · exact absurd (h a) (Memory.read_cons_ne_read_nil hm)
    · obtain rfl : a = b :=
        le_antisymm (not_lt.mp (Memory.not_head_lt hn hm (h b).symm)) (not_lt.mp (Memory.not_head_lt hm hn (h a)))
      obtain rfl : v = w := by simpa [Memory.read_cons] using h a
      obtain ⟨-, ha, hm⟩ := Memory.wf_cons.mp hm
      obtain ⟨-, ha', hn⟩ := Memory.wf_cons.mp hn
      rw [ih n hm hn fun c => ?_]
      by_cases hac : a = c
      · subst hac
        rw [Memory.read_below ha, Memory.read_below ha']
      · simpa [Memory.read_cons, hac] using h c

/-- `load` accepts every valid image (70_reset_and_hazards R320). -/
theorem load_of_valid {image : List Int} (hlen : image.length = 100) (hword : ∀ n ∈ image, 0 ≤ n ∧ n ≤ 999)
    (s : State) : load image s = .ok (loaded (image.map fun n => Word.ofNat n.toNat) s) :=
  if_pos ((validImage_iff image).mpr ⟨hlen, hword⟩)

/-- After `load` of 100 words each cell holds the image's entry of its address. -/
theorem loaded_mem_read {cells : List Word} (hlen : cells.length = 100) (s : State) (a : Addr) :
    (loaded cells s).mem.read a = cells[a.val]'(hlen.symm ▸ a.isLt) := by
  show (Memory.place [] 0 cells).read a = _
  rw [Memory.read_place cells [] 0 rfl (by omega), dif_pos (by omega)]
  rfl

/-- Settles O45: the cells by `loaded_mem_read`, the other fields as `loaded` sets them. -/
theorem loadSetsEveryResetValue : Obligations.LoadSetsEveryResetValue := by
  intro image s hlen hword
  refine ⟨_, load_of_valid hlen hword s, fun a n hn => ?_,
    rfl, rfl, rfl, rfl, rfl, rfl, rfl, rfl, rfl, rfl, rfl, rfl⟩
  obtain ⟨hlt, rfl⟩ := List.getElem?_eq_some_iff.mp hn
  have hrange := hword _ (List.getElem_mem hlt)
  rw [loaded_mem_read (by simpa using hlen), List.getElem_map, Word.val_ofNat]
  omega

/-- A state that a step leaves as it is is left so by any number of steps. -/
theorem core_run_of_step_eq_self {s : State} (h : step s = .next s) (k : Nat) : Host.Core.run core k s = .next s := by
  induction k with
  | zero => rfl
  | succ k ih => exact (core_run_succ h k).trans ih

/-- A stopped core performs no cycle (40_cycle R105, R106). -/
theorem step_of_stopped {s : State} (h : s.run ≠ .ready) : step s = .next s :=
  step_eq_next_iff.mpr (.inl ⟨fun he => h he.1, rfl⟩)

/-- A host write leaves the run-state (20_memory R56). -/
theorem hostWrite_run {n v : Int} {s t : State} (h : hostWrite n v s = .ok t) : t.run = s.run := by
  obtain ⟨-, -, rfl⟩ := hostWrite_ok h
  rfl

/-- A load that succeeds leaves the core Ready (70_reset_and_hazards R320). -/
theorem load_run {image : List Int} {s t : State} (h : load image s = .ok t) : t.run = .ready := by
  obtain ⟨-, rfl⟩ := load_ok h
  rfl

/-- Settles O47: the values as `State.powerOn` gives them, and a stopped core stays as it is until `load`. -/
theorem powerOnIsHaltedAndZero : Obligations.PowerOnIsHaltedAndZero :=
  ⟨fun _ => rfl, rfl, rfl, rfl, rfl, rfl, rfl, rfl, rfl,
    core_run_of_step_eq_self (step_of_stopped (by decide)),
    fun _ _ _ => hostWrite_run, fun _ => rfl, fun _ _ => load_run⟩

/-- Blank words placed in the memory that lists nothing leave it so. -/
theorem Memory.place_replicate_blank (n k : Nat) :
    Memory.place [] k (List.replicate n Memory.blank) = [] := by
  induction n generalizing k with
  | zero => rfl
  | succ n ih => exact ih (k + 1)

/-- Settles O48: 100 zeros list no cell, and every other field of power-on is at its reset value but the run-state, which
`load` sets. -/
theorem resetIsLoadOfBlankImage : Obligations.ResetIsLoadOfBlankImage := by
  have hcells : (List.replicate 100 (0 : Int)).map (fun n => Word.ofNat n.toNat) =
      List.replicate 100 Memory.blank := List.map_replicate
  have hload := load_of_valid (image := List.replicate 100 0) List.length_replicate
    (fun n hn => by rw [List.eq_of_mem_replicate hn]; omega) State.powerOn
  rw [hcells, loaded, Memory.place_replicate_blank] at hload
  exact hload

end Sys2Proof.Machine
end

section
/-! The cells of memory after a step and after the host's accesses (O29, O39, O43, O44). -/

namespace Sys2Proof.Machine

/-- A cell after the execute phase: ACC where the instruction is STA to it, else as before (20_memory R51). -/
theorem Executes.mem_read {s t : State} {i : Instr} (h : Executes s i t) (hm : s.mem.wf = true) (b : Addr) :
    t.mem.read b = if i = .sta b then s.acc else s.mem.read b := by
  cases h with
  | stores a => simp [Memory.read_write hm]
  | halts h | faults h => rw [if_neg (by rintro rfl; cases h)]; rfl
  | readsIntoAcc h => rw [if_neg (by rintro rfl; simp [ReadsIntoAcc] at h)]; rfl
  | jumps h => rw [if_neg (by rintro rfl; simp [BranchTaken] at h)]; rfl
  | passes h => rw [if_neg (by rintro rfl; simp [BranchPassed] at h)]
  | takesInput | givesOutput => rfl

/-- A cell after a step: ACC where the step performs a cycle of STA to it, else as before (20_memory R66). -/
theorem step_mem_read {s t : State} (hm : s.mem.wf = true) (h : step s = .next t) (b : Addr) :
    (Enabled s ∧ nextInstr s = .sta b → t.mem.read b = s.acc) ∧
      (¬(Enabled s ∧ nextInstr s = .sta b) → t.mem.read b = s.mem.read b) := by
  rcases step_eq_next_iff.mp h with ⟨hn, rfl⟩ | ⟨hen, he⟩
  · exact ⟨fun hs => absurd hs.1 hn, fun _ => rfl⟩
  · have hread := he.mem_read hm b
    exact ⟨fun hs => hread.trans (if_pos hs.2), fun hs => hread.trans (if_neg fun hi => hs ⟨hen, hi⟩)⟩

theorem isAddr_iff (n : Int) : isAddr n = true ↔ 0 ≤ n ∧ n ≤ 99 := decide_eq_true_iff

theorem isWord_iff (n : Int) : isWord n = true ↔ 0 ≤ n ∧ n ≤ 999 := decide_eq_true_iff

theorem isAddr_val (a : Addr) : isAddr a.val = true := (isAddr_iff _).mpr (by omega)

theorem isWord_val (w : Word) : isWord w.val = true := (isWord_iff _).mpr (by omega)

/-- A host write that succeeds leaves every cell but the named one (20_memory R56). -/
theorem hostWrite_mem_read_ne {n v : Int} {s t : State} {b : Addr} (hm : s.mem.wf = true)
    (h : hostWrite n v s = .ok t) (hb : (b.val : Int) ≠ n) : t.mem.read b = s.mem.read b := by
  obtain ⟨hn, -, rfl⟩ := hostWrite_ok h
  have hrange := (isAddr_iff n).mp hn
  have hne : Addr.ofNat n.toNat ≠ b := by
    rintro rfl
    rw [Addr.val_ofNat] at hb
    omega
  rw [Memory.read_write hm, if_neg hne]

theorem hostRead_addr (a : Addr) (s : State) : hostRead a.val s = .ok (s.mem.read a) := by
  simp [hostRead, isAddr_val]

theorem hostWrite_addr_word (a : Addr) (w : Word) (s : State) :
    hostWrite a.val w.val s = .ok { s with mem := s.mem.write a w } := by
  simp [hostWrite, isAddr_val, isWord_val]

/-- Settles O43: a cell's address passes the check, and every other integer fails it. -/
theorem hostReadIsBoundsChecked : Obligations.HostReadIsBoundsChecked := by
  refine fun n s => ⟨?_, fun hn => if_neg (mt (isAddr_iff n).mp hn)⟩
  rintro a rfl
  exact hostRead_addr a s

/-- Settles O44: `hostWrite_addr_word` where both checks pass; else the address's check fails, or only the value's. -/
theorem hostWriteIsBoundsChecked : Obligations.HostWriteIsBoundsChecked := by
  refine fun n v s hm => ⟨?_, fun hn => if_neg (mt (isAddr_iff n).mp hn), fun ⟨hn, hn', hv⟩ => ?_⟩
  · rintro a w rfl rfl
    refine ⟨_, hostWrite_addr_word a w s, fun b => ?_, rfl, rfl, ⟨rfl, rfl, rfl⟩, ⟨rfl, rfl, rfl⟩, ⟨rfl, rfl, rfl⟩⟩
    simp only [Memory.read_write hm, eq_comm]
  · exact (if_pos ((isAddr_iff n).mpr ⟨hn, hn'⟩)).trans (if_neg (mt (isWord_iff v).mp hv))

/-- Settles O29: the step by `step_mem_read`, the host's write by the one cell it sets. -/
theorem onlyStaAndHostWriteChangeCells : Obligations.OnlyStaAndHostWriteChangeCells :=
  ⟨fun _ _ b hm h => step_mem_read hm h b, fun _ _ _ _ _ => hostWrite_mem_read_ne, offerInput_mem⟩

/-- Settles O39: STA puts ACC in the cell, which the next fetch reads and only another STA to it changes, while CIR stays
as the storing cycle's own fetch left it. -/
theorem fetchSeesEveryStore : Obligations.FetchSeesEveryStore := by
  intro s t a hm hc hi
  have hstored : t.mem.read a = s.acc := (step_mem_read hm hc.2 a).1 ⟨hc.1, hi⟩
  refine ⟨hstored, ?_, hc.executes.cir_eq, fun u hu hne => ?_⟩
  · rintro rfl
    exact hstored
  · have hmt : t.mem.wf = true := hc.executes.mem_wf hm
    exact ((step_mem_read hmt hu.2 a).2 fun hs => hne hs.2).trans hstored

end Sys2Proof.Machine
end

section
/-! The decoder and the encoder (O3, O4, O1, O2): a word is its two fields, and `rowInstr` says once which instruction each
opcode's row of the table gives an operand (30_encoding R70, R74). -/

namespace Sys2Proof

open Laws.EncodingRange

theorem opcodeOf_val (w : Word) : (opcodeOf w).val = w.val / 100 := Nat.mod_eq_of_lt (by omega)

theorem operandOf_val (w : Word) : (operandOf w).val = w.val % 100 := Nat.mod_mod _ _

@[simp] theorem opcodeOf_wordOf (op : Fin 10) (a : Addr) : opcodeOf (wordOf op a) = op := by
  apply Fin.ext
  rw [opcodeOf_val, wordOf_val op (by omega)]
  omega

@[simp] theorem operandOf_wordOf (op : Fin 10) (a : Addr) : operandOf (wordOf op a) = a := by
  apply Fin.ext
  rw [operandOf_val, wordOf_val op (by omega)]
  omega

theorem wordOf_opcodeOf_operandOf (w : Word) : wordOf (opcodeOf w) (operandOf w) = w := by
  apply Fin.ext
  rw [wordOf_val _ (by omega), opcodeOf_val, operandOf_val]
  omega

/-- The instruction of an opcode's rows of the table, with an operand (30_encoding R74, R75). -/
def rowInstr (op : Fin 10) (a : Addr) : Instr :=
  match op with
  | 0 => decodeHlt a
  | 1 => .add a
  | 2 => .sub a
  | 3 => .sta a
  | 4 => .reserved4 a
  | 5 => .lda a
  | 6 => .bra a
  | 7 => .brp a
  | 8 => .brz a
  | 9 => decodeNine a

theorem decode_eq_rowInstr (w : Word) : decode w = rowInstr (opcodeOf w) (operandOf w) := rfl

theorem decode_wordOf (op : Fin 10) (a : Addr) : decode (wordOf op a) = rowInstr op a := by
  rw [decode_eq_rowInstr, opcodeOf_wordOf, operandOf_wordOf]

theorem decodeHlt_eq (a : Addr) : decodeHlt a = if a.val = 0 then .hlt else .hltOperand a := by
  simp only [decodeHlt, Fin.ext_iff, Fin.val_zero]

theorem decodeNine_eq (a : Addr) :
    decodeNine a =
      if a.val = 1 then .inp else if a.val = 2 then .out else if a.val = 0 then .invalid900 else .invalid9 a := by
  simp only [decodeNine, Fin.ext_iff]
  rfl

theorem decodeHlt_wf_encode (a : Addr) : (decodeHlt a).wf = true ∧ encode (decodeHlt a) = wordOf 0 a := by
  rw [decodeHlt_eq]
  split_ifs with h
  · exact ⟨rfl, congrArg (wordOf 0) (Fin.ext h.symm)⟩
  · have ha : 1 ≤ a.val := by omega
    exact ⟨decide_eq_true ha, rfl⟩

theorem decodeNine_wf_encode (a : Addr) : (decodeNine a).wf = true ∧ encode (decodeNine a) = wordOf 9 a := by
  rw [decodeNine_eq]
  split_ifs with hinp hout h
  · exact ⟨rfl, congrArg (wordOf 9) (Fin.ext hinp.symm)⟩
  · exact ⟨rfl, congrArg (wordOf 9) (Fin.ext hout.symm)⟩
  · exact ⟨rfl, congrArg (wordOf 9) (Fin.ext h.symm)⟩
  · have ha : 3 ≤ a.val := by omega
    exact ⟨decide_eq_true ha, rfl⟩

/-- Each row gives an instruction whose operand lies in its range and whose word has the row's fields (30_encoding R74). -/
theorem rowInstr_wf_encode (op : Fin 10) (a : Addr) :
    (rowInstr op a).wf = true ∧ encode (rowInstr op a) = wordOf op a :=
  match op with
  | 0 => decodeHlt_wf_encode a
  | 1 | 2 | 3 | 4 | 5 | 6 | 7 | 8 => ⟨rfl, rfl⟩
  | 9 => decodeNine_wf_encode a

theorem decode_wf (w : Word) : (decode w).wf = true := (rowInstr_wf_encode _ _).1

@[simp] theorem encode_decode (w : Word) : encode (decode w) = w :=
  (rowInstr_wf_encode _ _).2.trans (wordOf_opcodeOf_operandOf w)

theorem decode_encode {i : Instr} (h : i.wf = true) : decode (encode i) = i := by
  cases i with
  | hltOperand a =>
    have ha : 1 ≤ a.val := of_decide_eq_true h
    exact (decode_wordOf 0 a).trans ((decodeHlt_eq a).trans (if_neg (by omega)))
  | invalid9 a =>
    have ha : 3 ≤ a.val := of_decide_eq_true h
    refine (decode_wordOf 9 a).trans ((decodeNine_eq a).trans ?_)
    rw [if_neg (by omega), if_neg (by omega), if_neg (by omega)]
  | hlt => exact decode_wordOf 0 0
  | add a => exact decode_wordOf 1 a
  | sub a => exact decode_wordOf 2 a
  | sta a => exact decode_wordOf 3 a
  | reserved4 a => exact decode_wordOf 4 a
  | lda a => exact decode_wordOf 5 a
  | bra a => exact decode_wordOf 6 a
  | brp a => exact decode_wordOf 7 a
  | brz a => exact decode_wordOf 8 a
  | invalid900 => exact decode_wordOf 9 0
  | inp => exact decode_wordOf 9 Config.inpCode
  | out => exact decode_wordOf 9 Config.outCode

/-- Settles O3: the word of each constructor has its row's opcode and its operand, and the row gives the constructor back;
the operand's range is what keeps the two HLT forms and the opcode-9 forms apart. -/
theorem decodeOfEncodeIsIdentity : Obligations.DecodeOfEncodeIsIdentity := fun _ => decode_encode

/-- Settles O4: `decode_wf` and `encode_decode`; `encode` is so a left inverse of `decode`, which is therefore injective. -/
theorem everyWordIsOneWellFormedInstr : Obligations.EveryWordIsOneWellFormedInstr :=
  ⟨fun w => ⟨decode_wf w, encode_decode w⟩, Function.LeftInverse.injective encode_decode⟩

theorem decode_of_fields {w : Word} {a : Addr} {n : Nat} (op : Fin 10) (hop : op.val = n) (ha : a.val = w.val % 100)
    (hn : w.val / 100 = n) : decode w = rowInstr op a := by
  have hfields : opcodeOf w = op ∧ operandOf w = a :=
    ⟨Fin.ext ((opcodeOf_val w).trans (hn.trans hop.symm)), Fin.ext ((operandOf_val w).trans ha.symm)⟩
  rw [decode_eq_rowInstr, hfields.1, hfields.2]

/-- Settles O2: the two fields select the row's instruction, and `rowInstr` is the table of rows. -/
theorem decodeFollowsOpcodeAndOperand : Obligations.DecodeFollowsOpcodeAndOperand := by
  intro w a ha
  refine ⟨fun h => ?_, decode_of_fields 1 rfl ha, decode_of_fields 2 rfl ha, decode_of_fields 3 rfl ha,
    decode_of_fields 4 rfl ha, decode_of_fields 5 rfl ha, decode_of_fields 6 rfl ha, decode_of_fields 7 rfl ha,
    decode_of_fields 8 rfl ha, fun h => ?_, by omega⟩
  · exact (decode_of_fields 0 rfl ha h).trans (decodeHlt_eq a)
  · exact (decode_of_fields 9 rfl ha h).trans (decodeNine_eq a)

/-- Settles O1: one word of each row, evaluated. -/
theorem sampleWordsDecode : Obligations.SampleWordsDecode := by
  unfold Obligations.SampleWordsDecode
  decide

end Sys2Proof
end

section
/-! Every step answers, and the run-state it answers (O14, O32). -/

namespace Sys2Proof.Machine

open Laws.EncodingRange

/-- Settles O14: no cycle leaves the state as it is, and a cycle that can be performed has an execute phase, since an INP
then has its value. -/
theorem everyStepAnswersNext : Obligations.EveryStepAnswersNext := by
  intro s
  by_cases he : Enabled s
  · have hq : nextInstr s = .inp → (fetch s).inputQueue ≠ [] := fun hi hq => he.2 ⟨hi, hq⟩
    obtain ⟨t, ht⟩ := exists_executes hq
    exact ⟨t, step_eq_next_iff.mpr (.inr ⟨he, ht⟩)⟩
  · exact ⟨s, step_eq_next_iff.mpr (.inl ⟨he, rfl⟩)⟩

/-- The run-state a Ready core is left in by an instruction (10_state R31). -/
def runAfter : Instr → RunState
  | .hlt | .hltOperand _ => .halted
  | .reserved4 _ => .faulted .unimplementedOpcode
  | .invalid900 | .invalid9 _ => .faulted .invalidInstruction
  | .add _ | .sub _ | .sta _ | .lda _ | .bra _ | .brp _ | .brz _ | .inp | .out => .ready

theorem runAfter_of_isHalt {i : Instr} (h : isHalt i = true) : runAfter i = .halted := by
  cases i with
  | hlt | hltOperand => rfl
  | _ => cases h

theorem runAfter_of_faultOf {i : Instr} {c : Cause} (h : faultOf i = some c) : runAfter i = .faulted c := by
  cases i with
  | reserved4 | invalid900 | invalid9 => cases h; rfl
  | _ => cases h

theorem Executes.run_eq {s t : State} {i : Instr} (h : Executes s i t) (hr : s.run = .ready) : t.run = runAfter i := by
  cases h with
  | halts h => exact (runAfter_of_isHalt h).symm
  | faults h => exact (runAfter_of_faultOf h).symm
  | readsIntoAcc h => obtain ⟨rfl, -⟩ | ⟨rfl, -⟩ | ⟨rfl, -⟩ := h <;> exact hr
  | jumps h => obtain rfl | ⟨rfl, -⟩ | ⟨rfl, -⟩ := h <;> exact hr
  | passes h => obtain ⟨rfl, -⟩ | ⟨rfl, -⟩ := h <;> exact hr
  | stores | takesInput | givesOutput => exact hr

theorem encode_mem_tableRange {i : Instr} (h : i.wf = true) :
    InRange (tableRange i).1 (tableRange i).2 (encode i).val :=
  match i with
  | .hlt => hlt h
  | .hltOperand a => hltOperand a h
  | .add a => add a h
  | .sub a => sub a h
  | .sta a => sta a h
  | .reserved4 a => reserved4 a h
  | .lda a => lda a h
  | .bra a => bra a h
  | .brp a => brp a h
  | .brz a => brz a h
  | .invalid900 => invalid900 h
  | .inp => inp h
  | .out => out h
  | .invalid9 a => invalid9 a h

/-- Every word lies in the range of the row it decodes to: it is the word of that instruction, by `encode_decode`. -/
theorem mem_tableRange_decode (w : Word) : InRange (tableRange (decode w)).1 (tableRange (decode w)).2 w.val := by
  have h := encode_mem_tableRange (decode_wf w)
  rwa [encode_decode] at h

/-- The rows of a run-state and those of every other have ranges that do not meet, so a number in an instruction's row says
which run-state the instruction leaves (30_encoding R76 to R78). -/
theorem runAfter_iff_of_mem_tableRange {i : Instr} {n : Nat} (h : InRange (tableRange i).1 (tableRange i).2 n) :
    (runAfter i = .halted ↔ InRange 0 99 n) ∧
      (runAfter i = .faulted .unimplementedOpcode ↔ InRange 400 499 n) ∧
      (runAfter i = .faulted .invalidInstruction ↔ n = 900 ∨ InRange 903 999 n) ∧
      (runAfter i = .ready ↔ InRange 100 399 n ∨ InRange 500 899 n ∨ InRange 901 902 n) := by
  unfold InRange at h ⊢
  cases i <;> simp [tableRange, runAfter] at h ⊢ <;> omega

/-- Settles O32: the instruction decides the run-state, and the word lies in the instruction's row. -/
theorem runStateAfterEachCycle : Obligations.RunStateAfterEachCycle := by
  rintro s t _ hc rfl
  rw [hc.executes.run_eq hc.1.1]
  exact runAfter_iff_of_mem_tableRange (mem_tableRange_decode _)

end Sys2Proof.Machine
end

section
/-! The lines the assembler's front-end accepts (O52, O60): `SpellsOperand` and `SpellsStatement` are the grammar of
30_encoding R84 over the tokens of a line, and the front-end accepts exactly what they spell. -/

namespace Sys2Proof.Machine

/-- The tokens after a mnemonic spell its operand (30_encoding R84). -/
inductive SpellsOperand : Mnemonic → List (List Char) → Operand → Prop
  | absent {m : Mnemonic} (h : standsAlone m = true) : SpellsOperand m [] .absent
  | reference {m : Mnemonic} {u : List Char} (h : takesReference m = true) (hu : isLabelName u = true) :
      SpellsOperand m [u] (.symbol u)
  | word {u : List Char} {v : Nat} (hu : literalOf u = some v) (hv : v ≤ 999) : SpellsOperand .dat [u] (.literal v)
  | address {u : List Char} {v : Nat} (hu : literalOf u = some v) : SpellsOperand .org [u] (.literal v)

/-- The tokens of line `n` spell a statement: a mnemonic with its operand, alone or, but for ORG, after a label (30_encoding
R83, R84). -/
inductive SpellsStatement (n : Nat) : List (List Char) → Statement → Prop
  | unlabelled {t : List Char} {ts : List (List Char)} {m : Mnemonic} {o : Operand} (ht : mnemonicOf t = some m)
      (ho : SpellsOperand m ts o) : SpellsStatement n (t :: ts) ⟨none, m, o, n⟩
  | labelled {d t : List Char} {ts : List (List Char)} {l : Label} {m : Mnemonic} {o : Operand}
      (hd : mnemonicOf d = none) (hl : labelOf d = some l) (ht : mnemonicOf t = some m) (hm : m ≠ .org)
      (ho : SpellsOperand m ts o) : SpellsStatement n (d :: t :: ts) ⟨some l, m, o, n⟩

theorem oneOperand_eq_ok_iff {n : Nat} {want : Expected} {f : List Char → Option Operand} {ts : List (List Char)}
    {o : Operand} : oneOperand n want f ts = .ok o ↔ ∃ u, ts = [u] ∧ f u = some o := by
  refine ⟨fun h => ?_, ?_⟩
  · unfold oneOperand at h
    split at h
    · cases h
    · split at h
      · cases h
      · next hf =>
        split at h
        · next hr =>
          cases h
          exact ⟨_, by rw [List.isEmpty_iff.mp hr], hf⟩
        · cases h
  · rintro ⟨u, rfl, hf⟩
    simp [oneOperand, hf]

theorem labelOperand_eq_some_iff {u : List Char} {o : Operand} :
    labelOperand u = some o ↔ isLabelName u = true ∧ o = .symbol u := by
  unfold labelOperand
  split_ifs with h <;> simp [h, eq_comm]

theorem wordOperand_eq_some_iff {u : List Char} {o : Operand} :
    wordOperand u = some o ↔ ∃ v, literalOf u = some v ∧ v ≤ 999 ∧ o = .literal v := by
  unfold wordOperand
  cases literalOf u <;> simp [eq_comm]

theorem addressOperand_eq_some_iff {u : List Char} {o : Operand} :
    addressOperand u = some o ↔ ∃ v, literalOf u = some v ∧ o = .literal v := by
  simp [addressOperand, eq_comm]

theorem noOperand_eq_ok_iff {n : Nat} {ts : List (List Char)} {o : Operand} :
    noOperand n ts = .ok o ↔ ts = [] ∧ o = .absent := by
  cases ts <;> simp [noOperand, eq_comm]

/-- The front-end reads exactly the operands the grammar spells (30_encoding R84). -/
theorem operandFrom_eq_ok_iff {m : Mnemonic} {n : Nat} {ts : List (List Char)} {o : Operand} :
    operandFrom m n ts = .ok o ↔ SpellsOperand m ts o := by
  constructor
  · intro h
    cases m with
    | inp | out | hlt =>
      obtain ⟨rfl, rfl⟩ := noOperand_eq_ok_iff.mp h
      exact .absent rfl
    | dat =>
      cases ts with
      | nil => cases h; exact .absent rfl
      | cons =>
        have hread : oneOperand n .wordLiteral wordOperand (_ :: _) = .ok o := h
        obtain ⟨u, hts, hf⟩ := oneOperand_eq_ok_iff.mp hread
        obtain ⟨v, hu, hv, rfl⟩ := wordOperand_eq_some_iff.mp hf
        exact hts ▸ .word hu hv
    | org =>
      obtain ⟨u, rfl, hf⟩ := oneOperand_eq_ok_iff.mp h
      obtain ⟨v, hu, rfl⟩ := addressOperand_eq_some_iff.mp hf
      exact .address hu
    | _ =>
      obtain ⟨u, rfl, hf⟩ := oneOperand_eq_ok_iff.mp h
      obtain ⟨hu, rfl⟩ := labelOperand_eq_some_iff.mp hf
      exact .reference rfl hu
  · intro h
    cases h with
    | absent h =>
      cases m with
      | inp | out | hlt | dat => rfl
      | _ => cases h
    | reference h hu =>
      have hread : oneOperand n .labelReference labelOperand [_] = .ok _ :=
        oneOperand_eq_ok_iff.mpr ⟨_, rfl, labelOperand_eq_some_iff.mpr ⟨hu, rfl⟩⟩
      cases m with
      | add | sub | sta | lda | bra | brp | brz => exact hread
      | _ => cases h
    | word hu hv => exact oneOperand_eq_ok_iff.mpr ⟨_, rfl, wordOperand_eq_some_iff.mpr ⟨_, hu, hv, rfl⟩⟩
    | address hu => exact oneOperand_eq_ok_iff.mpr ⟨_, rfl, addressOperand_eq_some_iff.mpr ⟨_, hu, rfl⟩⟩

theorem statementFrom_eq_ok_iff {label : Option Label} {m : Mnemonic} {n : Nat} {ts : List (List Char)} {s : Statement} :
    statementFrom label m n ts = .ok s ↔
      (m = .org → label = none) ∧ ∃ o, SpellsOperand m ts o ∧ s = ⟨label, m, o, n⟩ := by
  unfold statementFrom
  split_ifs with h
  · simp [h.1, Option.isSome_iff_ne_none.mp h.2]
  · have hlabel : m = .org → label = none := fun hm => by simpa using fun hl => h ⟨hm, hl⟩
    simp only [and_iff_right hlabel, ← operandFrom_eq_ok_iff (n := n)]
    cases operandFrom m n ts <;> simp [eq_comm]

theorem map_some_eq_ok_iff {r : Except AsmError Statement} {s : Statement} :
    r.map some = .ok (some s) ↔ r = .ok s := by
  cases r <;> simp [Except.map]

/-- The front-end accepts exactly the lines whose tokens spell a statement, and as that statement (30_encoding R83, R84). -/
theorem parseLine_eq_some_iff {n : Nat} {line : List Char} {s : Statement} :
    parseLine n line = .ok (some s) ↔ SpellsStatement n (tokensOf line) s := by
  unfold parseLine
  generalize tokensOf line = ts
  constructor
  · intro h
    split at h
    · cases h
    · next t ts =>
      split at h
      · next m ht =>
        obtain ⟨-, o, ho, rfl⟩ := statementFrom_eq_ok_iff.mp (map_some_eq_ok_iff.mp h)
        exact .unlabelled ht ho
      · next hd =>
        split at h
        · cases h
        · next l hl =>
          split at h
          · cases h
          · next u us =>
            split at h
            · cases h
            · next m ht =>
              obtain ⟨horg, o, ho, rfl⟩ := statementFrom_eq_ok_iff.mp (map_some_eq_ok_iff.mp h)
              exact .labelled hd hl ht (fun hm => Option.some_ne_none l (horg hm)) ho
  · intro h
    cases h with
    | unlabelled ht ho =>
      simp only [ht]
      exact map_some_eq_ok_iff.mpr (statementFrom_eq_ok_iff.mpr ⟨fun _ => rfl, _, ho, rfl⟩)
    | labelled hd hl ht hm ho =>
      simp only [hd, hl, ht]
      exact map_some_eq_ok_iff.mpr (statementFrom_eq_ok_iff.mpr ⟨fun h => absurd h hm, _, ho, rfl⟩)

theorem SpellsOperand.fits {m : Mnemonic} {ts : List (List Char)} {o : Operand} (h : SpellsOperand m ts o) :
    operandFits m o = true := by
  cases h with
  | absent h =>
    cases m with
    | inp | out | hlt | dat => rfl
    | _ => cases h
  | reference h =>
    cases m with
    | add | sub | sta | lda | bra | brp | brz => rfl
    | _ => cases h
  | word _ hv => exact decide_eq_true hv
  | address => rfl

theorem SpellsStatement.wf {n : Nat} {ts : List (List Char)} {s : Statement} (h : SpellsStatement n ts s)
    (hn : 1 ≤ n) : s.wf = true := by
  cases h with
  | unlabelled _ ho => simp [Statement.wf, ho.fits, hn]
  | labelled _ _ _ hm ho => simp [Statement.wf, ho.fits, hm, hn]

theorem parseLines_wf {n : Nat} (hn : 1 ≤ n) {lines : List (List Char)} {ss : List Statement}
    (h : parseLines n lines = .ok ss) : ∀ s ∈ ss, s.wf = true := by
  induction lines generalizing n ss with
  | nil => cases h; simp
  | cons line lines ih =>
    unfold parseLines at h
    split at h
    · cases h
    · next parsed hline =>
      split at h
      · cases h
      · next rest hrest =>
        cases h
        intro s hs
        rcases List.mem_append.mp hs with hs | hs
        · rw [Option.mem_toList.mp hs] at hline
          exact (parseLine_eq_some_iff.mp hline).wf hn
        · exact ih (by omega) hrest s hs

/-- Settles O52: every statement is one its line's tokens spell, and the lines are numbered from 1. -/
theorem parsedStatementsAreWellFormed : Obligations.ParsedStatementsAreWellFormed :=
  fun _ _ h => parseLines_wf (Nat.le_refl 1) h

theorem parseLine_of_no_tokens {n : Nat} {line : List Char} (h : tokensOf line = []) : parseLine n line = .ok none := by
  simp [parseLine, h]

theorem parseLine_of_spells {n : Nat} {line : List Char} {ts : List (List Char)} {s : Statement}
    (h : SpellsStatement n ts s) (hts : tokensOf line = ts) : parseLine n line = .ok (some s) :=
  parseLine_eq_some_iff.mpr (hts ▸ h)

theorem ne_org_of_standsAlone {m : Mnemonic} (h : standsAlone m = true) : m ≠ .org := by
  rintro rfl
  cases h

theorem ne_org_of_takesReference {m : Mnemonic} (h : takesReference m = true) : m ≠ .org := by
  rintro rfl
  cases h

/-- Settles O60: each form of line is a constructor of `SpellsOperand`, without a label or after one. -/
theorem linesOfTheGrammarAreAccepted : Obligations.LinesOfTheGrammarAreAccepted := by
  refine fun n line => ⟨parseLine_of_no_tokens, fun t m ht => ⟨?_, ?_, ?_, ?_, fun d l hd hl => ⟨?_, ?_, ?_⟩⟩⟩
  · exact fun hm => parseLine_of_spells (.unlabelled ht (.absent hm))
  · exact fun u hm hu => parseLine_of_spells (.unlabelled ht (.reference hm hu))
  · rintro u v rfl hu hv
    exact parseLine_of_spells (.unlabelled ht (.word hu hv))
  · rintro u v rfl hu
    exact parseLine_of_spells (.unlabelled ht (.address hu))
  · exact fun hm => parseLine_of_spells (.labelled hd hl ht (ne_org_of_standsAlone hm) (.absent hm))
  · exact fun u hm hu => parseLine_of_spells (.labelled hd hl ht (ne_org_of_takesReference hm) (.reference hm hu))
  · rintro u v rfl hu hv
    exact parseLine_of_spells (.labelled hd hl ht (by decide) (.word hu hv))

end Sys2Proof.Machine
end

section
/-! One step: fetch, execute and the result the host sees (O10, O11, O13, O12, O15). -/

namespace Sys2Proof.Machine

/-- Settles O10: `fetch` writes four registers, PC by `nextAddr`, which folds mod 100. -/
theorem fetchLoadsWordAndAdvancesPc : Obligations.FetchLoadsWordAndAdvancesPc := by
  intro s
  have hpc : (fetch s).pc.val = (s.pc.val + 1) % 100 := Addr.val_ofNat _
  exact ⟨rfl, rfl, rfl, hpc, fun h => by rw [hpc, h], ⟨rfl, rfl⟩, ⟨rfl, rfl, rfl⟩, ⟨rfl, rfl, rfl⟩⟩

/-- Settles O11: under its conditions a cycle can be performed, so of the two things a step does it is the second. -/
theorem stepRunsDecodedInstruction : Obligations.StepRunsDecodedInstruction := by
  rintro s _ hr rfl hq
  have he : Enabled s := ⟨hr, fun h => hq h.1 h.2⟩
  obtain ⟨-, hh⟩ := (enabled_iff s).mp he
  rcases step_cases s with ⟨hn, -⟩ | ⟨-, -, hst⟩
  · simp [hr, hh] at hn
  · exact hst

theorem stepResult_of_waiting {s : State} (hr : s.run = .ready) (he : ¬Enabled s) : stepResult s = .hold := by
  have hh : holds s = true := by simpa [enabled_iff, hr] using he
  simp [stepResult, hr, hh]

/-- Where the core does not wait, the run-state after the step gives the result (40_cycle R104). -/
theorem stepResult_of_step {s t : State} (h : step s = .next t) (hs : Enabled s ∨ s.run ≠ .ready) :
    stepResult s = resultOf t.run := by
  have hh : ¬(s.run = .ready ∧ holds s = true) := by
    rintro ⟨hr, hh⟩
    simp [enabled_iff, hr, hh] at hs
  simp [stepResult, hh, h]

/-- Settles O13: INP without a value enables no cycle. -/
theorem inpWithoutInputHolds : Obligations.InpWithoutInputHolds := by
  intro s hr hi hq
  have he : ¬Enabled s := fun he => he.2 ⟨hi, hq⟩
  exact ⟨step_eq_next_iff.mpr (.inl ⟨he, rfl⟩), stepResult_of_waiting hr he,
    (cycleStart_eq_none s).mpr (.inr ((holds_eq_true s).mpr ⟨hi, hq⟩)), fun ⟨_, hc⟩ => he hc.1⟩

/-- Settles O12: a step of a stopped core answers the same state, and of the host's operations only `load` writes the
run-state. -/
theorem stoppedCoreStaysUntilLoad : Obligations.StoppedCoreStaysUntilLoad := fun _ hs =>
  ⟨core_run_of_step_eq_self (step_of_stopped hs), stepResult_of_step (step_of_stopped hs) (.inr hs),
    fun _ _ _ => hostWrite_run, fun _ => rfl, fun _ _ => load_run⟩

theorem resultOf_eq_continued {r : RunState} : resultOf r = .continued ↔ r = .ready := by cases r <;> simp [resultOf]

theorem resultOf_eq_halted {r : RunState} : resultOf r = .halted ↔ r = .halted := by cases r <;> simp [resultOf]

theorem resultOf_eq_fault {r : RunState} {c : Cause} : resultOf r = .fault c ↔ r = .faulted c := by
  cases r <;> simp [resultOf]

theorem resultOf_ne_hold (r : RunState) : resultOf r ≠ .hold := by cases r <;> simp [resultOf]

theorem haltedFlag_eq_true {r : StepResult} : haltedFlag r = some true ↔ r = .halted := by
  cases r <;> simp [haltedFlag]

/-- Settles O15: a waiting core stays Ready and holds; of every other the result is that of the run-state after the step,
which is Ready only after a cycle. -/
theorem stepResultReportsTheStep : Obligations.StepResultReportsTheStep := by
  intro s t hst
  rw [haltedFlag_eq_true]
  by_cases hw : s.run = .ready ∧ ¬Enabled s
  · obtain ⟨hr, he⟩ := hw
    obtain rfl : t = s := (step_eq_next_iff.mp hst).elim And.right fun h => absurd h.1 he
    rw [stepResult_of_waiting hr he]
    simp [hr, he]
  · have hs : Enabled s ∨ s.run ≠ .ready := by tauto
    have hready : t.run = .ready → Enabled s := by
      intro hr
      rcases step_eq_next_iff.mp hst with ⟨-, rfl⟩ | ⟨he, -⟩
      · exact hs.resolve_right (not_not.mpr hr)
      · exact he
    rw [stepResult_of_step hst hs]
    exact ⟨resultOf_eq_continued.trans (iff_and_self.mpr hready), resultOf_eq_halted, fun c => resultOf_eq_fault,
      iff_of_false (resultOf_ne_hold _) hw, resultOf_eq_halted⟩

end Sys2Proof.Machine
end

section
/-! A cycle with further values queued behind the ones offered: it does the same and leaves them queued (44_io R182). -/

namespace Sys2Proof.Machine

theorem executes_offerInput {s t : State} {i : Instr} (h : Executes s i t) (vs : List Nat) :
    Executes (offerInput vs s) i (offerInput vs t) := by
  cases h with
  | halts h => exact .halts h
  | faults h => exact .faults h
  | readsIntoAcc h => exact .readsIntoAcc h
  | stores a => exact .stores a
  | jumps h => exact .jumps h
  | passes h => exact .passes h
  | takesInput h => exact .takesInput (congrArg (· ++ vs) h)
  | givesOutput => exact .givesOutput

theorem enabled_offerInput {s : State} (h : Enabled s) (vs : List Nat) : Enabled (offerInput vs s) :=
  ⟨h.1, fun hw => h.2 ⟨hw.1, (List.append_eq_nil_iff.mp hw.2).1⟩⟩

theorem cycle_offerInput {s t : State} (h : Cycle s t) (vs : List Nat) :
    Cycle (offerInput vs s) (offerInput vs t) := by
  have he := enabled_offerInput h.1 vs
  exact ⟨he, step_eq_next_iff.mpr (.inr ⟨he, executes_offerInput h.executes vs⟩)⟩

theorem exists_cycle {s : State} (h : Enabled s) : ∃ t, Cycle s t :=
  (everyStepAnswersNext s).imp fun _ hst => ⟨h, hst⟩

end Sys2Proof.Machine
end

section
/-! The run loop (O49, O50, O51): `Returns` is what each status says of the loop's top, `LoopRuns` what a run of the loop
is made of, turn by turn; `loopMove_cases` and `runFrom_loopRuns` tie them to the loop. -/

namespace Sys2Proof.Machine

/-- The status the loop's top returns and what its checks then found (40_cycle R108). -/
inductive Returns (limit : Option Nat) (cancel exhausted : Bool) (n : Nat) (s : State) : RunStatus → Prop
  | halted (h : s.run = .halted) : Returns limit cancel exhausted n s .halted
  | faulted {c : Cause} (h : s.run = .faulted c) : Returns limit cancel exhausted n s (.faulted c)
  | cancelled (hr : s.run = .ready) (h : cancel = true) : Returns limit cancel exhausted n s .cancelled
  | stepLimit (hr : s.run = .ready) (h : limit = some n) : Returns limit cancel exhausted n s .stepLimit
  | inputExhausted (hr : s.run = .ready) (hw : ¬Enabled s) (h : exhausted = true) :
      Returns limit cancel exhausted n s .inputExhausted

theorem not_enabled_of_holds {s : State} (h : holds s = true) : ¬Enabled s := by simp [enabled_iff, h]

section

variable {limit : Option Nat} {cancel exhausted : Bool} {n : Nat} {s : State}

theorem topMove_halted (h : s.run = .halted) : topMove limit cancel exhausted n s = .finish .halted := by
  simp [topMove, h]

theorem topMove_faulted {c : Cause} (h : s.run = .faulted c) :
    topMove limit cancel exhausted n s = .finish (.faulted c) := by
  simp [topMove, h]

theorem topMove_cancelled (hr : s.run = .ready) : topMove limit true exhausted n s = .finish .cancelled := by
  simp [topMove, hr]

theorem topMove_wait (hr : s.run = .ready) (hh : holds s = true) (hl : limit ≠ some n) :
    topMove limit false false n s = .wait := by
  simp [topMove, hr, hh, hl]

theorem topMove_cycle (he : Enabled s) (hl : limit ≠ some n) : topMove limit false exhausted n s = .cycle := by
  obtain ⟨hr, hh⟩ := (enabled_iff s).mp he
  simp [topMove, hr, hh, hl]

end

/-- A run of the loop over a list of turns, from a point of it after `n` cycles, to its result. -/
inductive LoopRuns (limit : Option Nat) : List Turn → LoopPoint → Nat → State → RunResult → Prop
  | outOfTurns (p : LoopPoint) (n : Nat) (s : State) : LoopRuns limit [] p n s (.running n s)
  | returns {e : Turn} {p : LoopPoint} {n : Nat} {s : State} {st : RunStatus} (es : List Turn)
      (h : Returns limit (p.cancel || e.cancel) e.exhausted n (offerInput e.arrive s) st) :
      LoopRuns limit (e :: es) p n s (.done st n (offerInput e.arrive s))
  | waits {e : Turn} {es : List Turn} {p : LoopPoint} {n : Nat} {s : State} {r : RunResult}
      (h : LoopRuns limit es ⟨true, p.cancel || e.cancel⟩ n (offerInput e.arrive s) r) :
      LoopRuns limit (e :: es) p n s r
  | cycles {e : Turn} {es : List Turn} {p : LoopPoint} {n : Nat} {s t : State} {r : RunResult}
      (hl : limit ≠ some n) (hc : Cycle (offerInput e.arrive s) t)
      (h : LoopRuns limit es ⟨false, p.cancel || e.cancel⟩ (n + 1) t r) : LoopRuns limit (e :: es) p n s r

/-- What the checks found before the loop began to wait, and what no value that arrives changes (40_cycle R108). -/
def WaitChecked (limit : Option Nat) (p : LoopPoint) (n : Nat) (s : State) : Prop :=
  p.waiting = true → s.run = .ready ∧ limit ≠ some n

theorem waitChecked_top {limit : Option Nat} {c : Bool} {n : Nat} {s : State} : WaitChecked limit ⟨false, c⟩ n s :=
  nofun

/-- The moves at a turn, of a wait whose checks were made or of the loop's top. -/
theorem loopMove_cases {limit : Option Nat} {p : LoopPoint} {cancel exhausted : Bool} {n : Nat} {s : State}
    (hp : WaitChecked limit p n s) :
    (∃ st, loopMove limit p cancel exhausted n s = .finish st ∧ Returns limit cancel exhausted n s st) ∨
      (loopMove limit p cancel exhausted n s = .wait ∧ s.run = .ready ∧ limit ≠ some n) ∨
      (loopMove limit p cancel exhausted n s = .cycle ∧ limit ≠ some n ∧ Enabled s) := by
  obtain ⟨waiting, c⟩ := p
  cases waiting with
  | true =>
    obtain ⟨hr, hl⟩ := hp rfl
    by_cases hq : s.inputQueue = []
    · exact .inr (.inl ⟨waitMove_empty hq, hr, hl⟩)
    · exact .inr (.inr ⟨waitMove_value hq, hl, hr, fun h => hq h.2⟩)
  | false =>
    rw [loopMove_top]
    rcases topMove_cases limit cancel exhausted n s with ⟨hr, hm⟩ | ⟨c, hr, hm⟩ | ⟨hr, ⟨hc, hm⟩ | ⟨-, hl, hm⟩ |
      ⟨-, -, hh, hx, hm⟩ | ⟨-, hl, -, -, hm⟩ | ⟨-, hl, hh, hm⟩⟩
    · exact .inl ⟨_, hm, .halted hr⟩
    · exact .inl ⟨_, hm, .faulted hr⟩
    · exact .inl ⟨_, hm, .cancelled hr hc⟩
    · exact .inl ⟨_, hm, .stepLimit hr hl⟩
    · exact .inl ⟨_, hm, .inputExhausted hr (not_enabled_of_holds hh) hx⟩
    · exact .inr (.inl ⟨hm, hr, hl⟩)
    · exact .inr (.inr ⟨hm, hl, (enabled_iff s).mpr ⟨hr, hh⟩⟩)

theorem runFrom_loopRuns {limit : Option Nat} (turns : List Turn) {p : LoopPoint} {n : Nat} {s : State}
    (hp : WaitChecked limit p n s) : LoopRuns limit turns p n s (runFrom limit turns p n s) := by
  induction turns generalizing p n s with
  | nil => exact .outOfTurns p n s
  | cons e es ih =>
    have hp' : WaitChecked limit p n (offerInput e.arrive s) := hp
    rcases loopMove_cases (cancel := p.cancel || e.cancel) (exhausted := e.exhausted) hp' with
      ⟨st, hm, h⟩ | ⟨hm, hr, hl⟩ | ⟨hm, hl, he⟩
    · rw [runFrom_finish hm]
      exact .returns es h
    · rw [runFrom_wait hm]
      exact .waits (ih fun _ => ⟨hr, hl⟩)
    · obtain ⟨t, hc⟩ := exists_cycle he
      rw [runFrom_cycle hm hc.2]
      exact .cycles hl hc (ih waitChecked_top)

theorem runToHalt_loopRuns {limit : Option Nat} {turns : List Turn} {s : State} {r : RunResult}
    (h : runToHalt limit turns s = r) : LoopRuns limit turns .start 0 s r :=
  h ▸ runFrom_loopRuns turns waitChecked_top

/-- The cycles the loop has performed. -/
def RunResult.cycles : RunResult → Nat
  | .done _ n _ => n
  | .running n _ => n

theorem LoopRuns.cycles_le {N : Nat} {turns : List Turn} {p : LoopPoint} {n : Nat} {s : State} {r : RunResult}
    (h : LoopRuns (some N) turns p n s r) (hn : n ≤ N) : r.cycles ≤ N := by
  induction h with
  | outOfTurns | returns => exact hn
  | waits _ ih => exact ih hn
  | cycles hl _ _ ih =>
    have hne : N ≠ _ := fun h => hl (congrArg some h)
    exact ih (by omega)

/-- A step in front of a run: the values that arrive at its turn, and later ones, may all be queued before it. -/
theorem core_run_of_cycle {s t : State} {vs : List Nat} (hc : Cycle (offerInput vs s) t) (ws : List Nat) (k : Nat) :
    Host.Core.run core (k + 1) (offerInput (vs ++ ws) s) = Host.Core.run core k (offerInput ws t) := by
  rw [← offerInput_offerInput]
  exact core_run_succ (cycle_offerInput hc ws).2 k

theorem arrivals_cons (e : Turn) (es : List Turn) : arrivals (e :: es) = e.arrive ++ arrivals es := rfl

theorem cancelAsked_cons (e : Turn) (es : List Turn) : cancelAsked (e :: es) = (e.cancel || cancelAsked es) := rfl

/-- A run that returns: after some first turns, from the loop's top, in the state of as many steps as it counts with
the arrived values queued before (40_cycle R108, R111). -/
theorem LoopRuns.done {limit : Option Nat} {turns : List Turn} {p : LoopPoint} {n m : Nat} {s t : State} {st : RunStatus}
    (h : LoopRuns limit turns p n s (.done st m t)) :
    ∃ used last k, used ++ [last] <+: turns ∧ m = n + k ∧
      Host.Core.run core k (offerInput (arrivals (used ++ [last])) s) = .next t ∧
      Returns limit (p.cancel || cancelAsked (used ++ [last])) last.exhausted m t st := by
  generalize hres : RunResult.done st m t = r at h
  induction h with
  | outOfTurns => cases hres
  | @returns e _ _ _ _ es h =>
    cases hres
    exact ⟨[], e, 0, List.prefix_append [e] es, rfl, by simp [arrivals, Host.Core.run],
      by simpa [cancelAsked] using h⟩
  | @waits e _ _ _ _ _ _ ih =>
    obtain ⟨used, last, k, hpre, hm, hrun, hret⟩ := ih hres
    refine ⟨e :: used, last, k, List.cons_prefix_cons.mpr ⟨rfl, hpre⟩, hm, ?_, ?_⟩
    · rw [List.cons_append, arrivals_cons, ← offerInput_offerInput]
      exact hrun
    · rwa [List.cons_append, cancelAsked_cons, ← Bool.or_assoc]
  | @cycles e _ _ _ _ _ _ _ hc _ ih =>
    obtain ⟨used, last, k, hpre, hm, hrun, hret⟩ := ih hres
    refine ⟨e :: used, last, k + 1, List.cons_prefix_cons.mpr ⟨rfl, hpre⟩, by omega, ?_, ?_⟩
    · rw [List.cons_append, arrivals_cons, core_run_of_cycle hc]
      exact hrun
    · rwa [List.cons_append, cancelAsked_cons, ← Bool.or_assoc]

/-- A run whose turns are used up is in the state of as many steps as it counts, all arrived values queued before. -/
theorem LoopRuns.running {limit : Option Nat} {turns : List Turn} {p : LoopPoint} {n m : Nat} {s t : State}
    (h : LoopRuns limit turns p n s (.running m t)) :
    ∃ k, m = n + k ∧ Host.Core.run core k (offerInput (arrivals turns) s) = .next t := by
  generalize hres : RunResult.running m t = r at h
  induction h with
  | outOfTurns =>
    cases hres
    exact ⟨0, rfl, by simp [arrivals, Host.Core.run]⟩
  | returns => cases hres
  | waits _ ih =>
    obtain ⟨k, hm, hrun⟩ := ih hres
    refine ⟨k, hm, ?_⟩
    rw [arrivals_cons, ← offerInput_offerInput]
    exact hrun
  | cycles _ hc _ ih =>
    obtain ⟨k, hm, hrun⟩ := ih hres
    refine ⟨k + 1, by omega, ?_⟩
    rw [arrivals_cons, core_run_of_cycle hc]
    exact hrun

/-- Settles O49: the count stays within the limit by `LoopRuns.cycles_le`, and StepLimit is returned by its own check. -/
theorem runLoopRespectsStepLimit : Obligations.RunLoopRespectsStepLimit := by
  refine fun N turns s => ⟨fun st n t h => ?_, fun n t h => (runToHalt_loopRuns h).cycles_le N.zero_le⟩
  refine ⟨(runToHalt_loopRuns h).cycles_le N.zero_le, ?_⟩
  rintro rfl
  obtain ⟨_, _, _, -, -, -, hret⟩ := (runToHalt_loopRuns h).done
  cases hret with
  | stepLimit hr hl => exact ⟨(Option.some.inj hl).symm, hr⟩

/-- Each status with what it says of the state it is returned in (40_cycle R108). -/
theorem Returns.status {limit : Option Nat} {cancel exhausted : Bool} {n : Nat} {s : State} {st : RunStatus}
    (h : Returns limit cancel exhausted n s st) :
    (st = .halted ↔ s.run = .halted) ∧ (∀ c, st = .faulted c ↔ s.run = .faulted c) ∧
      (st = .cancelled → cancel = true ∧ s.run = .ready) ∧ (st = .stepLimit → limit = some n ∧ s.run = .ready) ∧
      (st = .inputExhausted → exhausted = true ∧ s.run = .ready ∧ ¬Enabled s) := by
  cases h with
  | halted h | faulted h => simp [h]
  | cancelled hr h | stepLimit hr h => simp [hr, h]
  | inputExhausted hr hw h => simp [hr, hw, h]

theorem offerInput_quietTurn (s : State) : offerInput quietTurn.arrive s = s := offerInput_nil s

/-- The loop over turns on which nothing happens performs the cycles of a core until its top returns (40_cycle R111). -/
theorem runFrom_quietTurns {n : Nat} {s t : State} {st : RunStatus} (m : Nat)
    (hrun : Host.Core.run core n s = .next t)
    (hen : ∀ k u, k < n → Host.Core.run core k s = .next u → Enabled u)
    (hst : ∀ k, topMove none false true k t = .finish st) :
    runFrom none (List.replicate (n + 1) quietTurn) .start m s = .done st (m + n) t := by
  induction n generalizing m s with
  | zero =>
    cases hrun
    rw [List.replicate_succ, runFrom_finish (by rw [offerInput_quietTurn]; exact hst m), offerInput_quietTurn,
      Nat.add_zero]
  | succ n ih =>
    obtain ⟨u, hc⟩ := exists_cycle (hen 0 s n.succ_pos rfl)
    have hmove : topMove none false true m s = .cycle := topMove_cycle hc.1 nofun
    have hrest := ih (m + 1) ((core_run_succ hc.2 n).symm.trans hrun)
      fun k v hk hv => hen (k + 1) v (by omega) ((core_run_succ hc.2 k).trans hv)
    rw [List.replicate_succ, runFrom_cycle (by rw [offerInput_quietTurn]; exact hmove)
      (by rw [offerInput_quietTurn]; exact hc.2), show m + (n + 1) = m + 1 + n by omega]
    exact hrest

/-- A wait goes on through turns at which no value arrives, and keeps what cancellation they request (log 21). -/
theorem runFrom_waiting {limit : Option Nat} {n : Nat} {s : State} (hq : s.inputQueue = []) {waits : List Turn}
    (hw : ∀ w ∈ waits, w.arrive = []) (c : Bool) (es : List Turn) :
    runFrom limit (waits ++ es) ⟨true, c⟩ n s = runFrom limit es ⟨true, c || cancelAsked waits⟩ n s := by
  induction waits generalizing c with
  | nil => simp [cancelAsked]
  | cons w waits ih =>
    obtain ⟨hw, hws⟩ := List.forall_mem_cons.mp hw
    have hs : offerInput w.arrive s = s := by rw [hw, offerInput_nil]
    rw [List.cons_append, runFrom_wait (by rw [hs]; exact waitMove_empty hq), hs, ih hws, cancelAsked_cons,
      Bool.or_assoc]

namespace WaitsThrough

variable {limit : Option Nat} {n : Nat} {s : State} {e : Turn} {waits : List Turn}

theorem runFrom_eq (h : WaitsThrough limit n s e waits) (es : List Turn) :
    runFrom limit (e :: waits ++ es) .start n s = runFrom limit es ⟨true, cancelAsked waits⟩ n s := by
  obtain ⟨hr, hi, hq, hl, hc, hx, ha, hw⟩ := h
  have hh : holds s = true := (holds_eq_true s).mpr ⟨hi, hq⟩
  have hs : offerInput e.arrive s = s := by rw [ha, offerInput_nil]
  have hmove : topMove limit e.cancel e.exhausted n s = .wait := by rw [hc, hx]; exact topMove_wait hr hh hl
  rw [List.cons_append, runFrom_wait (by rw [hs]; exact hmove), hs, runFrom_waiting hq hw]
  simp [LoopPoint.start, hc]

/-- The value that ends a wait is taken by the INP cycle, which leaves the core Ready (40_cycle R108). -/
theorem cycle_of_arrival (h : WaitsThrough limit n s e waits) {v : Turn} (hv : v.arrive ≠ []) :
    ∃ t, Cycle (offerInput v.arrive s) t ∧ t.run = .ready ∧ ∀ es, runFrom limit (e :: waits ++ v :: es) .start n s =
      runFrom limit es ⟨false, cancelAsked (waits ++ [v])⟩ (n + 1) t := by
  have ⟨hr, hi, _⟩ := h
  have hq : (offerInput v.arrive s).inputQueue ≠ [] := fun hq => hv (List.append_eq_nil_iff.mp hq).2
  obtain ⟨t, hc⟩ := exists_cycle (s := offerInput v.arrive s) ⟨hr, fun hw => hq hw.2⟩
  have hrun : t.run = runAfter .inp := hi ▸ hc.executes.run_eq hr
  refine ⟨t, hc, hrun, fun es => ?_⟩
  have hcancel : cancelAsked (waits ++ [v]) = (cancelAsked waits || v.cancel) := by simp [cancelAsked]
  rw [h.runFrom_eq, hcancel]
  exact runFrom_cycle (waitMove_value hq) hc.2

end WaitsThrough

/-- Settles O50: the first two parts by what a run of the loop is made of, the third by the cycles of a core one turn each,
the last by the wait's own moves. -/
theorem runLoopIsRepeatedSteps : Obligations.RunLoopIsRepeatedSteps := by
  refine ⟨fun limit turns s => ⟨fun st n t h => ?_, fun n t h => ?_⟩, fun n s t hrun hen => ⟨fun hr => ?_, fun c hr => ?_⟩,
    fun limit n s e waits h => ⟨?_, fun v es hv => ?_⟩⟩
  · obtain ⟨used, last, k, hpre, hn, hrun, hret⟩ := (runToHalt_loopRuns h).done
    rw [Nat.zero_add] at hn
    exact ⟨used, last, hpre, hn ▸ hrun, hret.status⟩
  · obtain ⟨k, hn, hrun⟩ := (runToHalt_loopRuns h).running
    rw [Nat.zero_add] at hn
    exact hn ▸ hrun
  · simpa [runToHalt] using runFrom_quietTurns 0 hrun hen fun _ => topMove_halted hr
  · simpa [runToHalt] using runFrom_quietTurns 0 hrun hen fun _ => topMove_faulted hr
  · rw [← List.append_nil (e :: waits), h.runFrom_eq, runFrom]
  · obtain ⟨t, hc, -, hrest⟩ := h.cycle_of_arrival hv
    exact ⟨t, hc, hrest es⟩

theorem runFrom_cancelled {limit : Option Nat} {p : LoopPoint} {e : Turn} (es : List Turn) (n : Nat) {s : State}
    (hp : p.waiting = false) (hc : p.cancel = true ∨ e.cancel = true) (hr : s.run = .ready) :
    runFrom limit (e :: es) p n s = .done .cancelled n (offerInput e.arrive s) := by
  obtain ⟨waiting, c⟩ := p
  subst hp
  have hcancel : (c || e.cancel) = true := Bool.or_eq_true_iff.mpr hc
  refine runFrom_finish ?_
  rw [loopMove_top, hcancel]
  exact topMove_cancelled hr

/-- Settles O51: at the loop's top by the second check; a request made in a wait is still there at the check after the INP
cycle. -/
theorem cancellationLeavesCoreReady : Obligations.CancellationLeavesCoreReady := by
  refine ⟨fun limit p e es n s hp hc hr => ⟨runFrom_cancelled es n hp hc hr, hr, fun ha => ?_⟩,
    fun limit n s e v l waits es h hv hc => ?_⟩
  · rw [ha, offerInput_nil]
  · obtain ⟨t, hcyc, hr, hrest⟩ := h.cycle_of_arrival hv
    exact ⟨t, hcyc, hr, (hrest _).trans (runFrom_cancelled es (n + 1) rfl (.inl hc) hr)⟩

end Sys2Proof.Machine
end

section
/-! The Arithmetic Unit and the instructions ADD and SUB (O7, O5, O6, O8, O16, O17). -/

namespace Sys2Proof.Machine

theorem aluAdd_val (a b : Word) : (aluAdd a b).1.val = (a.val + b.val) % 1000 := Nat.mod_mod _ _

theorem aluSub_val (a b : Word) : (aluSub a b).1.val = (a.val + 1000 - b.val) % 1000 := Nat.mod_mod _ _

theorem aluAdd_carry (a b : Word) : (aluAdd a b).2 = true ↔ 1000 ≤ a.val + b.val := decide_eq_true_iff

theorem aluSub_carry (a b : Word) : (aluSub a b).2 = true ↔ b.val ≤ a.val := decide_eq_true_iff

theorem aluSub_aluAdd_cancel (a b : Word) : (aluSub (aluAdd a b).1 b).1 = a := by
  apply Fin.ext
  rw [aluSub_val, aluAdd_val]
  omega

theorem aluAdd_aluSub_cancel (a b : Word) : (aluAdd (aluSub a b).1 b).1 = a := by
  apply Fin.ext
  rw [aluAdd_val, aluSub_val]
  omega

/-- Settles O7: each operation is exact mod 1000, so the other one takes it back. -/
theorem subUndoesAddAndAddUndoesSub : Obligations.SubUndoesAddAndAddUndoesSub :=
  fun a b => ⟨aluSub_aluAdd_cancel a b, aluAdd_aluSub_cancel a b⟩

/-- Settles O5: the result by `aluAdd_val`, the carry by `aluAdd_carry`. -/
theorem aluAddFoldsAndCarries : Obligations.AluAddFoldsAndCarries :=
  fun a b => ⟨aluAdd_val a b, aluAdd_carry a b⟩

/-- Subtraction is addition of the ten's complement, the carry included, where the complement is a word (41_arithmetic
R122). -/
theorem aluSub_eq_aluAdd_complement {a b c : Word} (hc : c.val = 1000 - b.val) : aluSub a b = aluAdd a c := by
  have hsum : a.val + 1000 - b.val = a.val + c.val := by omega
  have hcarry : b.val ≤ a.val ↔ 1000 ≤ a.val + c.val := by omega
  simp only [aluSub, aluAdd, hsum, hcarry]

/-- Settles O6: the direct formula by `aluSub_val` and `aluSub_carry`, the ten's-complement form by
`aluSub_eq_aluAdd_complement`. -/
theorem aluSubFoldsAndCarries : Obligations.AluSubFoldsAndCarries :=
  fun a b => ⟨aluSub_val a b, aluSub_carry a b, fun _ _ hc => aluSub_eq_aluAdd_complement hc⟩

/-- Settles O8: the results by `aluAdd_val` and `aluSub_val`; the flags are exact for the folded number. -/
theorem testableArithmeticAndFlagLaws : Obligations.TestableArithmeticAndFlagLaws :=
  ⟨fun a b => ⟨aluAdd_val a b, aluSub_val a b⟩, flagsExact_setAcc⟩

/-- What an instruction leaves that reads cell `a` and sets ACC to a word (10_state R31). -/
theorem accFromCell_setAcc_readOperand (a : Addr) (w : Word) (s : State) :
    AccFromCell a w.val s (setAcc w.val (readOperand a s)) :=
  ⟨by simp, flagsExact_setAcc _ _, rfl, rfl, rfl, rfl, ⟨rfl, rfl⟩, ⟨rfl, rfl, rfl⟩⟩

/-- Settles O16: ADD sets ACC to the unit's sum of ACC and the cell read. -/
theorem addFoldsIntoAcc : Obligations.AddFoldsIntoAcc := by
  intro a s
  refine ⟨decode_wordOf 1 a, _, exec_add a s, ?_⟩
  rw [← aluAdd_val]
  exact accFromCell_setAcc_readOperand a _ s

/-- Settles O17: SUB sets ACC to the unit's difference of ACC and the cell read. -/
theorem subFoldsIntoAcc : Obligations.SubFoldsIntoAcc := by
  intro a s
  refine ⟨decode_wordOf 2 a, _, exec_sub a s, ?_⟩
  rw [← aluSub_val]
  exact accFromCell_setAcc_readOperand a _ s

end Sys2Proof.Machine
end

section
/-! The instructions LDA and STA (O18, O19). -/

namespace Sys2Proof.Machine

/-- Settles O18: LDA sets ACC to the word of the cell read. -/
theorem ldaLoadsCell : Obligations.LdaLoadsCell :=
  fun a s => ⟨decode_wordOf 5 a, _, exec_lda a s, accFromCell_setAcc_readOperand a (s.mem.read a) s⟩

/-- The cell that an operand write sets (42_load_store R140). -/
theorem writeOperand_mem_read_same {s : State} (hm : s.mem.wf = true) (a : Addr) :
    (writeOperand a s).mem.read a = s.acc := by
  rw [writeOperand_mem, Memory.read_write hm, if_pos rfl]

/-- The cells that an operand write leaves alone (20_memory R51). -/
theorem writeOperand_mem_read_ne {s : State} (hm : s.mem.wf = true) {a b : Addr} (hne : b ≠ a) :
    (writeOperand a s).mem.read b = s.mem.read b := by
  rw [writeOperand_mem, Memory.read_write hm, if_neg hne.symm]

/-- Settles O19: STA is the operand write, which by the law of a read after a write sets its own cell alone and writes
of the registers only MAR and MDR. -/
theorem staStoresAccInOneCell : Obligations.StaStoresAccInOneCell :=
  fun a s hm => ⟨decode_wordOf 3 a, _, exec_sta a s, writeOperand_mem_read_same hm a,
    fun _ hne => writeOperand_mem_read_ne hm hne, Memory.wf_write hm a s.acc, writeOperand_mar a s, writeOperand_mdr a s,
    writeOperand_cir a s, writeOperand_pc a s, writeOperand_run a s, .refl s, ⟨rfl, rfl, rfl⟩⟩

end Sys2Proof.Machine
end

section
/-! The branches BRA, BRP and BRZ (O20, O21, O22). -/

namespace Sys2Proof.Machine

theorem OnlyPcMayDiffer.refl (s : State) : OnlyPcMayDiffer s s :=
  ⟨⟨rfl, rfl⟩, .refl s, ⟨rfl, rfl, rfl⟩, ⟨rfl, rfl, rfl⟩⟩

theorem onlyPcMayDiffer_jump (a : Addr) (s : State) : OnlyPcMayDiffer s (jump a s) :=
  ⟨⟨rfl, rfl⟩, .refl s, ⟨rfl, rfl, rfl⟩, ⟨rfl, rfl, rfl⟩⟩

/-- Settles O20: BRA is the jump, which writes PC alone. -/
theorem braJumps : Obligations.BraJumps :=
  fun a s => ⟨decode_wordOf 6 a, _, exec_bra a s, jump_pc a s, onlyPcMayDiffer_jump a s⟩

/-! What BRP and BRZ share: the jump under a flag, which `exec_brp` and `exec_brz` read from P and from Z. -/

theorem jumpIf_pc_of_true {flag : Bool} (a : Addr) (s : State) (h : flag = true) :
    (if flag then jump a s else s).pc = a := by
  rw [if_pos h, jump_pc]

theorem jumpIf_pc_of_false {flag : Bool} (a : Addr) (s : State) (h : flag = false) :
    (if flag then jump a s else s).pc = s.pc := by
  subst h
  rfl

theorem onlyPcMayDiffer_jumpIf (flag : Bool) (a : Addr) (s : State) :
    OnlyPcMayDiffer s (if flag then jump a s else s) := by
  cases flag with
  | true => exact onlyPcMayDiffer_jump a s
  | false => exact .refl s

theorem FlagsExact.p_eq_true {s : State} (h : FlagsExact s) (hacc : 500 ≤ s.acc.val) : s.p = true :=
  h.2.mpr hacc

theorem FlagsExact.p_eq_false {s : State} (h : FlagsExact s) (hacc : s.acc.val < 500) : s.p = false :=
  Bool.eq_false_iff.mpr fun hp => absurd (h.2.mp hp) (Nat.not_le.mpr hacc)

theorem FlagsExact.z_eq_true {s : State} (h : FlagsExact s) (hacc : s.acc.val = 0) : s.z = true :=
  h.1.mpr hacc

theorem FlagsExact.z_eq_false {s : State} (h : FlagsExact s) (hacc : s.acc.val ≠ 0) : s.z = false :=
  Bool.eq_false_iff.mpr fun hz => hacc (h.1.mp hz)

/-- Settles O21: BRP is the jump under P, which exact flags set from 500 on and `load` leaves clear. -/
theorem brpJumpsIfP : Obligations.BrpJumpsIfP :=
  fun a s => ⟨decode_wordOf 7 a, _, exec_brp a s, jumpIf_pc_of_true a s, jumpIf_pc_of_false a s,
    fun hf hacc => jumpIf_pc_of_true a s (hf.p_eq_true hacc),
    fun hf hacc => jumpIf_pc_of_false a s (hf.p_eq_false hacc),
    fun ⟨_, hp, _⟩ => jumpIf_pc_of_false a s hp, onlyPcMayDiffer_jumpIf s.p a s⟩

/-- Settles O22: BRZ is the jump under Z, which exact flags set at 0 alone and `load` leaves clear. -/
theorem brzJumpsIfZ : Obligations.BrzJumpsIfZ :=
  fun a s => ⟨decode_wordOf 8 a, _, exec_brz a s, jumpIf_pc_of_true a s, jumpIf_pc_of_false a s,
    fun hf hacc => jumpIf_pc_of_true a s (hf.z_eq_true hacc),
    fun hf hacc => jumpIf_pc_of_false a s (hf.z_eq_false hacc),
    fun ⟨hz, _, _⟩ => jumpIf_pc_of_false a s hz, onlyPcMayDiffer_jumpIf s.z a s⟩

end Sys2Proof.Machine
end

section
/-! Input and output (O34, O35, O41, O23, O24). -/

namespace Sys2Proof.Machine

theorem SameInOut.refl (s : State) : SameInOut s s := ⟨rfl, rfl, rfl⟩

/-! What an execute phase does to the queue and the histories: INP, OUT and every other instruction (44_io R182, R184). -/

namespace Executes

variable {s t : State} {i : Instr}

theorem inOut_of_inp {v : Nat} {rest : List Nat} (h : Executes s .inp t) (hq : s.inputQueue = v :: rest) :
    t.inputQueue = rest ∧ t.inputTaken = s.inputTaken ++ [v] ∧ t.output = s.output := by
  rw [h.unique (.takesInput hq)]
  exact ⟨rfl, rfl, rfl⟩

theorem inOut_of_out (h : Executes s .out t) :
    t.output = s.output ++ [s.acc] ∧ t.inputQueue = s.inputQueue ∧ t.inputTaken = s.inputTaken := by
  rw [h.unique .givesOutput]
  exact ⟨rfl, rfl, rfl⟩

theorem sameInOut (h : Executes s i t) (hinp : i ≠ .inp) (hout : i ≠ .out) : SameInOut s t := by
  cases h with
  | takesInput => exact absurd rfl hinp
  | givesOutput => exact absurd rfl hout
  | _ => exact .refl s

end Executes

/-- Settles O34: a step that performs no cycle answers the same state; in a cycle fetch leaves the queue and the histories,
and the execute phase does to them what its instruction says. An INP cycle has a value to take, since it is enabled. -/
theorem onlyInpTakesAndOnlyOutGives : Obligations.OnlyInpTakesAndOnlyOutGives := by
  intro s t hst
  rcases step_eq_next_iff.mp hst with ⟨hn, rfl⟩ | ⟨he, hx⟩
  · exact ⟨fun h => absurd h.1 hn, fun h => absurd h.1 hn, fun _ => .refl t⟩
  · refine ⟨fun ⟨_, hi⟩ => ?_, fun ⟨_, hi⟩ => ?_, fun hno => ?_⟩
    · obtain ⟨v, rest, hq⟩ := List.exists_cons_of_ne_nil fun hq => he.2 ⟨hi, hq⟩
      obtain ⟨rfl, htaken, hout⟩ := (hi ▸ hx).inOut_of_inp hq
      exact ⟨v, hq, htaken, hout⟩
    · exact (hi ▸ hx).inOut_of_out
    · exact hx.sameInOut (fun hi => hno ⟨he, .inl hi⟩) (fun hi => hno ⟨he, .inr hi⟩)

/-- From one state to a later one the input is conserved and the histories grow (44_io R183, R184). -/
def InOutProgress (s t : State) : Prop :=
  t.inputTaken ++ t.inputQueue = s.inputTaken ++ s.inputQueue ∧
    s.inputTaken <+: t.inputTaken ∧ s.output <+: t.output

theorem SameInOut.progress {s t : State} (h : SameInOut s t) : InOutProgress s t := by
  obtain ⟨hqueue, htaken, hout⟩ := h
  simp [InOutProgress, hqueue, htaken, hout]

theorem InOutProgress.trans {s t u : State} (hst : InOutProgress s t) (htu : InOutProgress t u) : InOutProgress s u := by
  obtain ⟨hinput, htaken, hout⟩ := hst
  obtain ⟨hinput', htaken', hout'⟩ := htu
  exact ⟨hinput'.trans hinput, htaken.trans htaken', hout.trans hout'⟩

/-- One step: the value that an INP takes moves from the head of the queue to the end of the input history. -/
theorem step_inOutProgress {s t : State} (h : step s = .next t) : InOutProgress s t := by
  obtain ⟨hinp, hout, hsame⟩ := onlyInpTakesAndOnlyOutGives s t h
  by_cases hio : Enabled s ∧ (nextInstr s = .inp ∨ nextInstr s = .out)
  · obtain ⟨he, hi | hi⟩ := hio
    · obtain ⟨v, hqueue, htaken, houtput⟩ := hinp ⟨he, hi⟩
      simp [InOutProgress, hqueue, htaken, houtput]
    · obtain ⟨houtput, hqueue, htaken⟩ := hout ⟨he, hi⟩
      simp [InOutProgress, hqueue, htaken, houtput]
  · exact (hsame hio).progress

/-- Settles O35: by induction on the number of steps, each of which makes progress. -/
theorem inputIsConsumedInQueueOrder : Obligations.InputIsConsumedInQueueOrder := by
  intro k
  induction k with
  | zero =>
    rintro s t ⟨⟩
    exact (SameInOut.refl s).progress
  | succ k ih =>
    intro s t hrun
    obtain ⟨u, hu⟩ := everyStepAnswersNext s
    rw [core_run_succ hu] at hrun
    exact (step_inOutProgress hu).trans (ih u t hrun)

/-- Settles O41: a cycle does the same with further values queued behind, by `cycle_offerInput`. -/
theorem laterInputInfluencesNothing : Obligations.LaterInputInfluencesNothing :=
  fun _ _ vs hc => cycle_offerInput hc vs

/-- Settles O23: INP with a value offered is `set_acc` after the take; INP with none enables no cycle (O13). -/
theorem inpTakesOneInput : Obligations.InpTakesOneInput := by
  refine ⟨decode_encode (i := .inp) rfl, fun s v rest hq => ?_, fun s hr hi hq => ?_⟩
  · exact ⟨_, exec_inp_offered hq, Word.val_ofNat v, flagsExact_setAcc _ _, rfl, rfl, rfl, rfl, ⟨rfl, rfl, rfl⟩,
      ⟨rfl, rfl⟩⟩
  · obtain ⟨hstep, hresult, hstart, -⟩ := inpWithoutInputHolds s hr hi hq
    exact ⟨hstart, hstep, hresult⟩

/-- Settles O24: OUT is the output of ACC, which writes the output history alone. -/
theorem outGivesAcc : Obligations.OutGivesAcc :=
  ⟨decode_encode (i := .out) rfl, fun s =>
    ⟨_, exec_out s, putOutput_output s.acc s, rfl, rfl, rfl, ⟨rfl, rfl⟩, .refl s, ⟨rfl, rfl, rfl⟩⟩⟩

end Sys2Proof.Machine
end

section
/-! HLT and the words that raise a runtime fault (O25, O26, O27). -/

namespace Sys2Proof.Machine

theorem onlyRunMayDiffer_halt (s : State) : OnlyRunMayDiffer s (halt s) :=
  ⟨rfl, rfl, .refl s, ⟨rfl, rfl, rfl⟩, .refl s⟩

theorem onlyRunMayDiffer_raise (c : Cause) (s : State) : OnlyRunMayDiffer s (raise c s) :=
  ⟨rfl, rfl, .refl s, ⟨rfl, rfl, rfl⟩, .refl s⟩

theorem isHalt_decodeHlt (a : Addr) : isHalt (decodeHlt a) = true := by
  rw [decodeHlt_eq]
  split_ifs <;> rfl

/-- A word of opcode 0 is HLT, whatever its operand (30_encoding R78). -/
theorem isHalt_decode {w : Word} (hw : w.val ≤ 99) : isHalt (decode w) = true := by
  have hdecode : decode w = decodeHlt (operandOf w) := decode_of_fields 0 rfl (operandOf_val w) (by omega)
  rw [hdecode]
  exact isHalt_decodeHlt _

theorem enabled_of_isHalt {s : State} (hr : s.run = .ready) (h : isHalt (nextInstr s) = true) : Enabled s := by
  refine ⟨hr, fun ⟨hinp, _⟩ => ?_⟩
  rw [nextInstr, hinp] at h
  cases h

/-- Settles O25: a Ready core on an HLT word does not wait for input, so its step is the halt of the state fetch left,
and the step after that finds the core stopped. -/
theorem hltHalts : Obligations.HltHalts := by
  refine ⟨fun w => isHalt_decode,
    fun s => ⟨_, exec_hlt s, halt_run s, onlyRunMayDiffer_halt s⟩,
    fun a s => ⟨_, exec_hltOperand a s, halt_run s, onlyRunMayDiffer_halt s⟩, fun s hr hw => ?_⟩
  have hhalt : isHalt (nextInstr s) = true := isHalt_decode hw
  have he : Enabled s := enabled_of_isHalt hr hhalt
  have hstep : step s = .next (halt (fetch s)) := step_eq_next_iff.mpr (.inr ⟨he, .halts hhalt⟩)
  have hstopped : (halt (fetch s)).run ≠ .ready := by simp
  exact ⟨_, hstep, stepResult_of_step hstep (.inl he), halt_run _, Addr.val_ofNat _, rfl, rfl, rfl, rfl, .refl s,
    .refl s, step_of_stopped hstopped⟩

/-- Settles O26: row 4 of the table is the reserved instruction, which raises and so writes the run-state alone. -/
theorem reservedFourFaults : Obligations.ReservedFourFaults :=
  fun a s => ⟨decode_wordOf 4 a, _, exec_reserved4 a s, raise_run _ s, onlyRunMayDiffer_raise _ s⟩

/-- Settles O27: 900 and the words from 903 on are the words of the two invalid instructions, which raise and so write
the run-state alone. -/
theorem invalidNineFaults : Obligations.InvalidNineFaults :=
  ⟨decode_encode (i := .invalid900) rfl, fun a ha => decode_encode (i := .invalid9 a) (decide_eq_true ha),
    fun s => ⟨_, exec_invalid900 s, raise_run _ s, onlyRunMayDiffer_raise _ s⟩,
    fun a s => ⟨_, exec_invalid9 a s, raise_run _ s, onlyRunMayDiffer_raise _ s⟩⟩

end Sys2Proof.Machine
end

section
/-! Pass 1 of the assembler's back-end (O59, O55, O58): `AcceptsStatement` and `RefusesStatement` say once what one statement
does to the state of pass 1, and pass 1 accepts a row exactly when it accepts its statements one after the other. -/

namespace Sys2Proof.Machine

/-- What pass 1 makes of a statement it accepts (50_assembler_backend R224 to R227). -/
inductive AcceptsStatement (st : AsmState) (s : Statement) : AsmState → Prop
  | org {v : Nat} (hm : s.mnemonic = .org) (ho : s.operand = .literal v) (hv : v ≤ 99) :
      AcceptsStatement st s { lc := v, sym := st.sym, placed := st.placed }
  | unlabelled {a : Addr} (hm : s.mnemonic ≠ .org) (ha : a.val = st.lc) (hl : s.label = none) :
      AcceptsStatement st s { lc := st.lc + 1, sym := st.sym, placed := st.placed ++ [(s, a)] }
  | labelled {a : Addr} {l : Label} (hm : s.mnemonic ≠ .org) (ha : a.val = st.lc) (hl : s.label = some l)
      (hnew : st.sym.lookup l = none) :
      AcceptsStatement st s { lc := st.lc + 1, sym := (l, a) :: st.sym, placed := st.placed ++ [(s, a)] }

/-- The diagnostic pass 1 has for a statement it refuses (50_assembler_backend R225 to R227; log 17 for an ORG without a
literal). -/
inductive RefusesStatement (st : AsmState) (s : Statement) : AsmError → Prop
  | orgOverflow {v : Nat} (hm : s.mnemonic = .org) (ho : s.operand = .literal v) (hv : 99 < v) :
      RefusesStatement st s (.addressOverflow s.line)
  | orgMalformed (hm : s.mnemonic = .org) (ho : ∀ v, s.operand ≠ .literal v) :
      RefusesStatement st s (.syntaxError s.line .addressLiteral)
  | overflow (hm : s.mnemonic ≠ .org) (hlc : 99 < st.lc) : RefusesStatement st s (.addressOverflow s.line)
  | duplicate {l : Label} {a : Addr} (hm : s.mnemonic ≠ .org) (hlc : st.lc ≤ 99) (hl : s.label = some l)
      (hbound : st.sym.lookup l = some a) : RefusesStatement st s (.duplicateSymbol l s.line)

theorem AcceptsStatement.pass1Statement_eq {st u : AsmState} {s : Statement} (h : AcceptsStatement st s u) :
    pass1Statement st s = .ok u := by
  cases h with
  | org hm ho hv => simp [pass1Statement, orgStatement, hm, ho, hv]
  | unlabelled hm ha hl =>
    simp [pass1Statement, placeStatement, bindLabel, hm, hl, ← ha, Nat.le_of_lt_succ]
  | labelled hm ha hl hnew =>
    simp [pass1Statement, placeStatement, bindLabel, hm, hl, hnew, ← ha, Nat.le_of_lt_succ]

theorem RefusesStatement.pass1Statement_eq {st : AsmState} {s : Statement} {e : AsmError}
    (h : RefusesStatement st s e) : pass1Statement st s = .error e := by
  cases h with
  | orgOverflow hm ho hv => simp [pass1Statement, orgStatement, hm, ho, hv]
  | orgMalformed hm ho =>
    cases hop : s.operand with
    | literal v => exact absurd hop (ho v)
    | absent | symbol => simp [pass1Statement, orgStatement, hm, hop]
  | overflow hm hlc => simp [pass1Statement, placeStatement, hm, hlc]
  | duplicate hm hlc hl hbound => simp [pass1Statement, placeStatement, bindLabel, hm, hlc, hl, hbound]

/-- Every statement is accepted or refused in one of the ways listed. -/
theorem accepts_or_refuses (st : AsmState) (s : Statement) :
    (∃ u, AcceptsStatement st s u) ∨ ∃ e, RefusesStatement st s e := by
  by_cases hm : s.mnemonic = .org
  · cases ho : s.operand with
    | literal v =>
      rcases Nat.lt_or_ge 99 v with hv | hv
      · exact .inr ⟨_, .orgOverflow hm ho hv⟩
      · exact .inl ⟨_, .org hm ho hv⟩
    | absent | symbol => exact .inr ⟨_, .orgMalformed hm (by simp [ho])⟩
  · rcases Nat.lt_or_ge 99 st.lc with hlc | hlc
    · exact .inr ⟨_, .overflow hm hlc⟩
    · have ha : (Addr.ofNat st.lc).val = st.lc := Nat.mod_eq_of_lt (by omega)
      cases hl : s.label with
      | none => exact .inl ⟨_, .unlabelled hm ha hl⟩
      | some l =>
        cases hsym : st.sym.lookup l with
        | none => exact .inl ⟨_, .labelled hm ha hl hsym⟩
        | some a => exact .inr ⟨_, .duplicate hm hlc hl hsym⟩

theorem pass1Statement_eq_ok_iff {st u : AsmState} {s : Statement} :
    pass1Statement st s = .ok u ↔ AcceptsStatement st s u := by
  refine ⟨fun h => ?_, AcceptsStatement.pass1Statement_eq⟩
  rcases accepts_or_refuses st s with ⟨v, hv⟩ | ⟨e, he⟩
  · cases hv.pass1Statement_eq.symm.trans h
    exact hv
  · cases he.pass1Statement_eq.symm.trans h

theorem pass1Statement_eq_error_iff {st : AsmState} {s : Statement} {e : AsmError} :
    pass1Statement st s = .error e ↔ RefusesStatement st s e := by
  refine ⟨fun h => ?_, RefusesStatement.pass1Statement_eq⟩
  rcases accepts_or_refuses st s with ⟨v, hv⟩ | ⟨d, hd⟩
  · cases hv.pass1Statement_eq.symm.trans h
  · cases hd.pass1Statement_eq.symm.trans h
    exact hd

/-- Pass 1 accepts a first statement and then the others, from the state it left. -/
theorem pass1From_cons_eq_ok_iff {st u : AsmState} {s : Statement} {ss : List Statement} :
    pass1From st (s :: ss) = .ok u ↔ ∃ v, AcceptsStatement st s v ∧ pass1From v ss = .ok u := by
  simp only [← pass1Statement_eq_ok_iff, pass1From]
  cases pass1Statement st s <;> simp

theorem pass1_append_eq_ok_iff {before after : List Statement} {u : AsmState} :
    pass1 (before ++ after) = .ok u ↔ ∃ st, pass1 before = .ok st ∧ pass1From st after = .ok u := by
  simp only [pass1, pass1From_append]
  cases pass1From AsmState.start before <;> simp

theorem pass1_append_of_accepts {before : List Statement} {s : Statement} {st u : AsmState}
    (h : pass1 before = .ok st) (hs : AcceptsStatement st s u) : pass1 (before ++ [s]) = .ok u :=
  pass1_append_eq_ok_iff.mpr ⟨st, h, pass1From_cons_eq_ok_iff.mpr ⟨u, hs, rfl⟩⟩

/-- The first statement that is refused ends pass 1, whatever follows (50_assembler_backend R250). -/
theorem pass1From_eq_error_iff {st : AsmState} {ss : List Statement} {e : AsmError} :
    pass1From st ss = .error e ↔
      ∃ before s after u, ss = before ++ s :: after ∧ pass1From st before = .ok u ∧ RefusesStatement u s e := by
  constructor
  · intro h
    induction ss generalizing st with
    | nil => cases h
    | cons s ss ih =>
      unfold pass1From at h
      split at h
      · next hs =>
        cases h
        exact ⟨[], s, ss, st, rfl, rfl, pass1Statement_eq_error_iff.mp hs⟩
      · next v hs =>
        obtain ⟨before, t, after, u, rfl, hb, ht⟩ := ih h
        exact ⟨s :: before, t, after, u, rfl, pass1From_cons_eq_ok_iff.mpr ⟨v, pass1Statement_eq_ok_iff.mp hs, hb⟩, ht⟩
  · rintro ⟨before, s, after, u, rfl, hb, hs⟩
    simp [pass1From_append, hb, pass1From, hs.pass1Statement_eq]

theorem pass1_append_of_refuses {before after : List Statement} {s : Statement} {st : AsmState} {e : AsmError}
    (h : pass1 before = .ok st) (hs : RefusesStatement st s e) : pass1 (before ++ s :: after) = .error e :=
  pass1From_eq_error_iff.mpr ⟨before, s, after, st, rfl, h, hs⟩

theorem lookup_cons_of_ne {sym : SymbolTable} {k l : Label} (a : Addr) (h : k ≠ l) :
    List.lookup k ((l, a) :: sym) = sym.lookup k := by
  rw [List.lookup_cons, beq_eq_false_iff_ne.mpr h]

/-- Settles O59: each clause is a constructor of `AcceptsStatement` or `RefusesStatement`, after the row that passed. -/
theorem passOneTakesOneStatementMore : Obligations.PassOneTakesOneStatementMore := by
  refine ⟨rfl, fun before after s st hst => ⟨?_, ?_, ?_, ?_, ?_, ?_⟩⟩
  · exact fun v hm ho hv => pass1_append_of_accepts hst (.org hm ho hv)
  · exact fun v hm ho hv => pass1_append_of_refuses hst (.orgOverflow hm ho hv)
  · exact fun hm hlc => pass1_append_of_refuses hst (.overflow hm hlc)
  · exact fun l a hm hlc hl hbound => pass1_append_of_refuses hst (.duplicate hm hlc hl hbound)
  · exact fun a hm ha hl => pass1_append_of_accepts hst (.unlabelled hm ha hl)
  · exact fun l a hm ha hl hnew => ⟨_, pass1_append_of_accepts hst (.labelled hm ha hl hnew), List.lookup_cons_self,
      fun k hk => lookup_cons_of_ne a hk⟩

/-- What holds at the start of pass 1 and is kept by every statement it accepts holds of every row that passes, with the
state it leaves. -/
theorem pass1_induction {motive : ∀ ss st, pass1 ss = .ok st → Prop} (start : motive [] AsmState.start rfl)
    (step : ∀ {ss s st u} (h : pass1 ss = .ok st) (hs : AcceptsStatement st s u), motive ss st h →
      motive (ss ++ [s]) u (pass1_append_of_accepts h hs))
    {ss : List Statement} {st : AsmState} (h : pass1 ss = .ok st) : motive ss st h := by
  induction ss using List.reverseRecOn generalizing st with
  | nil => cases h; exact start
  | append_singleton ss s ih =>
    obtain ⟨u, hu, hs⟩ := pass1_append_eq_ok_iff.mp h
    obtain ⟨v, hv, hend⟩ := pass1From_cons_eq_ok_iff.mp hs
    cases hend
    exact step hu hv (ih hu)

theorem counterFrom_append (lc : Nat) (ss ts : List Statement) :
    counterFrom lc (ss ++ ts) = counterFrom (counterFrom lc ss) ts := by
  induction ss generalizing lc with
  | nil => rfl
  | cons s ss ih => exact ih _

theorem occupying_append_of_org {s : Statement} (hm : s.mnemonic = .org) (ss : List Statement) :
    occupying (ss ++ [s]) = occupying ss := by
  simp [occupying, List.filter_append, hm]

theorem occupying_append_of_ne_org {s : Statement} (hm : s.mnemonic ≠ .org) (ss : List Statement) :
    occupying (ss ++ [s]) = occupying ss ++ [s] := by
  simp [occupying, List.filter_append, hm]

theorem pass1_lc {ss : List Statement} {st : AsmState} (h : pass1 ss = .ok st) : st.lc = counterFrom 0 ss := by
  induction h using pass1_induction with
  | start => rfl
  | step _ hs ih =>
    rw [counterFrom_append, ← ih]
    cases hs with
    | org hm ho => simp [counterFrom, hm, ho, orgTarget]
    | unlabelled hm | labelled hm => simp [counterFrom, hm]

theorem AcceptsStatement.lc_le {st u : AsmState} {s : Statement} (h : AcceptsStatement st s u) : u.lc ≤ 100 := by
  cases h with
  | org _ _ hv => exact Nat.le_succ_of_le hv
  | unlabelled _ ha | labelled _ ha => exact ha ▸ Nat.succ_le_of_lt (Fin.isLt _)

theorem pass1_lc_le {ss : List Statement} {st : AsmState} (h : pass1 ss = .ok st) : st.lc ≤ 100 := by
  induction h using pass1_induction with
  | start => exact Nat.zero_le _
  | step _ hs _ => exact hs.lc_le

theorem pass1_labels_nodup {ss : List Statement} {st : AsmState} (h : pass1 ss = .ok st) :
    (st.sym.map Prod.fst).Nodup := by
  induction h using pass1_induction with
  | start => exact List.nodup_nil
  | step _ hs ih =>
    cases hs with
    | org | unlabelled => exact ih
    | labelled _ _ _ hnew => exact List.nodup_cons.mpr ⟨lookup_none_not_mem hnew, ih⟩

theorem pass1_placed_statements {ss : List Statement} {st : AsmState} (h : pass1 ss = .ok st) :
    st.placed.map Prod.fst = occupying ss := by
  induction h using pass1_induction with
  | start => rfl
  | step _ hs ih =>
    cases hs with
    | org hm => rw [occupying_append_of_org hm, ih]
    | unlabelled hm | labelled hm => simp [occupying_append_of_ne_org hm, ih]

/-- Every label of a placed statement is bound to its address (50_assembler_backend R223). -/
theorem pass1_label_bound {ss : List Statement} {st : AsmState} (h : pass1 ss = .ok st) :
    ∀ c ∈ st.placed, ∀ l, c.1.label = some l → st.sym.lookup l = some c.2 := by
  induction h using pass1_induction with
  | start => simp [AsmState.start]
  | step _ hs ih =>
    cases hs with
    | org => exact ih
    | unlabelled _ _ hl => simpa [or_imp, forall_and, hl] using ih
    | @labelled a k _ _ hl hnew =>
      intro c hc l hcl
      rcases List.mem_append.mp hc with hc | hc
      · have hold := ih c hc l hcl
        have hlk : l ≠ k := by
          rintro rfl
          rw [hnew] at hold
          cases hold
        exact (lookup_cons_of_ne a hlk).trans hold
      · obtain rfl := List.mem_singleton.mp hc
        cases hl.symm.trans hcl
        exact List.lookup_cons_self

theorem AcceptsStatement.placed_prefix {st u : AsmState} {s : Statement} (h : AcceptsStatement st s u) :
    st.placed <+: u.placed := by
  cases h with
  | org => exact List.prefix_rfl
  | unlabelled | labelled => exact List.prefix_append _ _

theorem pass1From_placed_prefix {ss : List Statement} {st u : AsmState} (h : pass1From st ss = .ok u) :
    st.placed <+: u.placed := by
  induction ss generalizing st with
  | nil => cases h; exact List.prefix_rfl
  | cons s ss ih =>
    obtain ⟨v, hs, hv⟩ := pass1From_cons_eq_ok_iff.mp h
    exact hs.placed_prefix.trans (ih hv)

theorem AcceptsStatement.placed_eq {st u : AsmState} {s : Statement} (h : AcceptsStatement st s u)
    (hm : s.mnemonic ≠ .org) : ∃ a : Addr, a.val = st.lc ∧ u.placed = st.placed ++ [(s, a)] := by
  cases h with
  | org horg => exact absurd horg hm
  | unlabelled _ ha | labelled _ ha => exact ⟨_, ha, rfl⟩

/-- A statement within a row that passes stands where the counter was after the statements before it. -/
theorem pass1_placed_at {before after : List Statement} {s : Statement} {st : AsmState}
    (h : pass1 (before ++ s :: after) = .ok st) (hm : s.mnemonic ≠ .org) :
    ∃ a : Addr, a.val = counterFrom 0 before ∧ st.placed[(occupying before).length]? = some (s, a) := by
  obtain ⟨u, hu, hrest⟩ := pass1_append_eq_ok_iff.mp h
  obtain ⟨v, hs, hv⟩ := pass1From_cons_eq_ok_iff.mp hrest
  obtain ⟨a, ha, hplaced⟩ := hs.placed_eq hm
  obtain ⟨later, hlater⟩ := pass1From_placed_prefix hv
  have hlen : (occupying before).length = u.placed.length := by
    rw [← pass1_placed_statements hu, List.length_map]
  refine ⟨a, ha.trans (pass1_lc hu), ?_⟩
  rw [← hlater, hplaced, hlen]
  simp

/-- Settles O55: each part is an invariant of the rows that pass. -/
theorem passOneBuildsUniqueLabels : Obligations.PassOneBuildsUniqueLabels := by
  refine fun ss st h => ⟨pass1_lc h, pass1_lc_le h, pass1_labels_nodup h, pass1_placed_statements h, ?_,
    fun s a l hs => pass1_label_bound h (s, a) hs l⟩
  rintro before after s rfl hm
  exact pass1_placed_at h hm

/-- The state of pass 1 after a row without ORG and labels: the `k`-th statement stands at cell `k`. -/
def sequentialState (ss : List Statement) : AsmState :=
  { lc := ss.length, sym := [], placed := ss.mapIdx fun k s => (s, Addr.ofNat k) }

theorem pass1_sequential {ss : List Statement} (hss : ∀ s ∈ ss, s.mnemonic ≠ .org ∧ s.label = none)
    (hlen : ss.length ≤ 100) : pass1 ss = .ok (sequentialState ss) := by
  induction ss using List.reverseRecOn with
  | nil => rfl
  | append_singleton ss s ih =>
    rw [List.length_append, List.length_singleton] at hlen
    obtain ⟨hm, hl⟩ := hss s (by simp)
    have hbefore := ih (fun t ht => hss t (List.mem_append_left _ ht)) (by omega)
    have ha : (Addr.ofNat ss.length).val = (sequentialState ss).lc := Nat.mod_eq_of_lt (by omega)
    rw [pass1_append_of_accepts hbefore (.unlabelled hm ha hl)]
    simp [sequentialState, List.mapIdx_append]

/-- Settles O58: up to 100 statements leave `sequentialState`; after the first 100 the counter is 100, which refuses the
next one. -/
theorem sequentialProgramsFitHundredCells : Obligations.SequentialProgramsFitHundredCells := by
  refine fun ss hss => ⟨fun hlen => ⟨_, pass1_sequential hss hlen, rfl, fun k s hk => ?_⟩, fun s hs => ?_⟩
  · simp [sequentialState, hk]
  · obtain ⟨hlt, hget⟩ := List.getElem?_eq_some_iff.mp hs
    have hsplit : ss = ss.take 100 ++ s :: ss.drop 101 := by
      rw [← hget, List.cons_getElem_drop_succ, List.take_append_drop]
    have hfirst : (ss.take 100).length = 100 := List.length_take_of_le (by omega)
    have hbefore := pass1_sequential (fun t ht => hss t (List.mem_of_mem_take ht)) hfirst.le
    have hlc : 99 < (sequentialState (ss.take 100)).lc := by
      show 99 < (ss.take 100).length
      omega
    rw [hsplit]
    exact pass1_append_of_refuses hbefore (.overflow (hss s (List.mem_of_getElem? hs)).1 hlc)

end Sys2Proof.Machine
end

section
/-! Pass 2 of the assembler's back-end, its cells and its image (O54, O56, O57, O53). -/

namespace Sys2Proof.Machine

/-- The opcode of a memory-reference or branch mnemonic (50_assembler_backend R240). -/
def referenceOpcode : Mnemonic → Option (Fin 10)
  | .add => some 1
  | .sub => some 2
  | .sta => some 3
  | .lda => some 5
  | .bra => some 6
  | .brp => some 7
  | .brz => some 8
  | .inp | .out | .hlt | .dat | .org => none

theorem cellOf_of_referenceOpcode {s : Statement} {op : Fin 10} (h : referenceOpcode s.mnemonic = some op)
    (sym : SymbolTable) : cellOf sym s = referenceCell sym op s := by
  unfold cellOf
  cases hm : s.mnemonic with
  | inp | out | hlt | dat | org => simp [hm, referenceOpcode] at h
  | _ => rw [hm] at h; cases h; rfl

theorem referenceCell_of_bound {sym : SymbolTable} {s : Statement} {l : Label} {a : Addr}
    (ho : s.operand = .symbol l) (ha : sym.lookup l = some a) (op : Nat) :
    referenceCell sym op s = .ok (wordOf op a) := by
  simp [referenceCell, ho, ha]

theorem referenceCell_of_unbound {sym : SymbolTable} {s : Statement} {l : Label} (ho : s.operand = .symbol l)
    (hl : sym.lookup l = none) (op : Nat) : referenceCell sym op s = .error (.undefinedSymbol l s.line) := by
  simp [referenceCell, ho, hl]

theorem decode_of_referenceOpcode {sym : SymbolTable} {s : Statement} {w : Word} {l : Label} {a : Addr} {op : Fin 10}
    (hw : cellOf sym s = .ok w) (ho : s.operand = .symbol l) (ha : sym.lookup l = some a)
    (hop : referenceOpcode s.mnemonic = some op) : decode w = rowInstr op a := by
  rw [cellOf_of_referenceOpcode hop, referenceCell_of_bound ho ha] at hw
  cases hw
  exact decode_wordOf op a

theorem datCell_of_absent {s : Statement} (ho : s.operand = .absent) : datCell s = .ok 0 := by
  simp [datCell, ho]

theorem datCell_of_literal {s : Statement} {v : Nat} (ho : s.operand = .literal v) (hv : v ≤ 999) :
    datCell s = .ok (Word.ofNat v) := by
  simp [datCell, ho, hv]

theorem datCell_literal_val {s : Statement} {v : Nat} {w : Word} (ho : s.operand = .literal v)
    (hw : datCell s = .ok w) : w.val = v := by
  by_cases hv : v ≤ 999
  · cases (datCell_of_literal ho hv).symm.trans hw
    exact Nat.mod_eq_of_lt (by omega)
  · simp [datCell, ho, hv] at hw

theorem cellOf_dat {s : Statement} (hm : s.mnemonic = .dat) (sym : SymbolTable) : cellOf sym s = datCell s := by
  simp [cellOf, hm]

/-- A statement whose word is that of a well-formed instruction has no other word, and it decodes to that instruction. -/
theorem val_and_decode_of_cellOf_encode {sym : SymbolTable} {s : Statement} {w : Word} {i : Instr} (hi : i.wf = true)
    (hw : cellOf sym s = .ok w) (hc : cellOf sym s = .ok (encode i)) : w.val = (encode i).val ∧ decode w = i := by
  cases hw.symm.trans hc
  exact ⟨rfl, decode_encode hi⟩

/-- Settles O54: a reference's word has the opcode of its mnemonic and the symbol's address as fields, which the decoder
reads back; the other words are fixed or the literal. -/
theorem emittedWordsDecodeToTheirMnemonic : Obligations.EmittedWordsDecodeToTheirMnemonic := by
  intro sym s w hw
  refine ⟨fun l ho a ha => ?_, fun hm => ?_, fun hm => ?_, fun hm => ?_, fun hm ho => ?_, fun v hm ho => ?_⟩
  · have href {m : Mnemonic} {op : Fin 10} (hop : referenceOpcode m = some op) (hm : s.mnemonic = m) :
        decode w = rowInstr op a := decode_of_referenceOpcode hw ho ha (hm ▸ hop)
    exact ⟨href (op := 1) rfl, href (op := 2) rfl, href (op := 3) rfl, href (op := 5) rfl, href (op := 6) rfl,
      href (op := 7) rfl, href (op := 8) rfl⟩
  · exact val_and_decode_of_cellOf_encode (i := .inp) rfl hw (by simp [cellOf, hm, encode])
  · exact val_and_decode_of_cellOf_encode (i := .out) rfl hw (by simp [cellOf, hm, encode])
  · exact val_and_decode_of_cellOf_encode (i := .hlt) rfl hw (by simp [cellOf, hm, encode])
  · rw [cellOf_dat hm, datCell_of_absent ho] at hw
    cases hw
    rfl
  · exact datCell_literal_val ho (cellOf_dat hm sym ▸ hw)

/-- Pass 2 over a row and then another is pass 2 over the second on the image the first left. -/
theorem pass2From_append_eq_ok_iff {sym : SymbolTable} {img out : Image} {before after : List (Statement × Addr)} :
    pass2From sym img (before ++ after) = .ok out ↔
      ∃ mid, pass2From sym img before = .ok mid ∧ pass2From sym mid after = .ok out := by
  induction before generalizing img with
  | nil => simp [pass2From]
  | cons c before ih =>
    simp only [List.cons_append, pass2From]
    cases cellOf sym c.1 with
    | error e => simp
    | ok w => exact ih

theorem pass2From_cons_eq_ok_iff {sym : SymbolTable} {img out : Image} {s : Statement} {a : Addr}
    {rest : List (Statement × Addr)} :
    pass2From sym img ((s, a) :: rest) = .ok out ↔
      ∃ w, cellOf sym s = .ok w ∧ pass2From sym (img.set a.val w) rest = .ok out := by
  simp only [pass2From]
  cases cellOf sym s <;> simp

theorem pass2From_length {sym : SymbolTable} {placed : List (Statement × Addr)} {img out : Image}
    (h : pass2From sym img placed = .ok out) : out.length = img.length := by
  induction placed generalizing img with
  | nil => cases h; rfl
  | cons c placed ih =>
    obtain ⟨w, -, hrest⟩ := pass2From_cons_eq_ok_iff.mp h
    exact (ih hrest).trans List.length_set

theorem pass2_length {st : AsmState} {img : Image} (h : pass2 st = .ok img) : img.length = 100 :=
  (pass2From_length h).trans List.length_replicate

/-- A cell at which no statement of the row is placed stays as it was. -/
theorem pass2From_getElem?_of_notMem {sym : SymbolTable} {placed : List (Statement × Addr)} {img out : Image} {a : Addr}
    (h : pass2From sym img placed = .ok out) (ha : a ∉ placed.map Prod.snd) : out[a.val]? = img[a.val]? := by
  induction placed generalizing img with
  | nil => cases h; rfl
  | cons c placed ih =>
    obtain ⟨w, -, hrest⟩ := pass2From_cons_eq_ok_iff.mp h
    rw [List.map_cons, List.mem_cons, not_or] at ha
    obtain ⟨hac, ha⟩ := ha
    exact (ih hrest ha).trans (List.getElem?_set_ne fun hval => hac (Fin.ext hval.symm))

/-- Settles O56: pass 2 starts from a blank image, and after the last statement of a cell nothing changes it. -/
theorem lastStatementOfACellWins : Obligations.LastStatementOfACellWins := by
  refine fun st img h => ⟨fun a ha => ?_, fun before after s a w hplaced ha hw => ?_⟩
  · exact (pass2From_getElem?_of_notMem h ha).trans (List.getElem?_replicate_of_lt a.isLt)
  · rw [pass2, hplaced] at h
    obtain ⟨mid, hmid, hrest⟩ := pass2From_append_eq_ok_iff.mp h
    obtain ⟨v, hv, hlater⟩ := pass2From_cons_eq_ok_iff.mp hrest
    cases hw.symm.trans hv
    have hlen : mid.length = 100 := (pass2From_length hmid).trans List.length_replicate
    rw [pass2From_getElem?_of_notMem hlater ha, List.getElem?_set_self (by omega)]

theorem Statement.wf_iff {s : Statement} :
    s.wf = true ↔ operandFits s.mnemonic s.operand = true ∧ (s.mnemonic = .org → s.label = none) ∧ 1 ≤ s.line := by
  simp [Statement.wf, and_assoc, imp_iff_not_or]

theorem exists_referenceOpcode_of_fits {m : Mnemonic} {l : Label} (h : operandFits m (.symbol l) = true) :
    ∃ op, referenceOpcode m = some op := by
  cases m with
  | add | sub | sta | lda | bra | brp | brz => exact ⟨_, rfl⟩
  | _ => cases h

/-- A statement that the front-end can hand over and that occupies a cell (30_encoding R84, 50_assembler_backend R224). -/
def FillsCell (s : Statement) : Prop := s.wf = true ∧ s.mnemonic ≠ .org

theorem FillsCell.fits {s : Statement} (h : FillsCell s) : operandFits s.mnemonic s.operand = true := (Statement.wf_iff.mp h.1).1

/-- Such a statement, if it refers to no symbol, has a word under every symbol table. -/
theorem FillsCell.exists_cellOf_of_no_symbol {s : Statement} (h : FillsCell s)
    (ho : ∀ l, s.operand ≠ .symbol l) (sym : SymbolTable) : ∃ w, cellOf sym s = .ok w := by
  have hfits := h.fits
  obtain ⟨label, m, o, n⟩ := s
  cases o with
  | symbol l => exact absurd rfl (ho l)
  | absent =>
    cases m with
    | inp | out | hlt | dat => exact ⟨_, rfl⟩
    | _ => cases hfits
  | literal v =>
    cases m with
    | dat => exact ⟨_, (cellOf_dat rfl sym).trans (datCell_of_literal rfl (of_decide_eq_true hfits))⟩
    | org => exact absurd rfl h.2
    | _ => cases hfits

/-- It has a word under a symbol table that binds the symbol it refers to, if any; under another it is an
UndefinedSymbolError of that symbol at its line (50_assembler_backend R232). -/
theorem FillsCell.cellOf_cases {s : Statement} (h : FillsCell s) (sym : SymbolTable) :
    ((∀ l, s.operand = .symbol l → ∃ a, sym.lookup l = some a) ∧ ∃ w, cellOf sym s = .ok w) ∨
      ∃ l, s.operand = .symbol l ∧ sym.lookup l = none ∧ cellOf sym s = .error (.undefinedSymbol l s.line) := by
  by_cases ho : ∃ l, s.operand = .symbol l
  · obtain ⟨l, ho⟩ := ho
    obtain ⟨op, hop⟩ := exists_referenceOpcode_of_fits (ho ▸ h.fits)
    rw [cellOf_of_referenceOpcode hop]
    cases hl : sym.lookup l with
    | none => exact .inr ⟨l, ho, hl, referenceCell_of_unbound ho hl op⟩
    | some a =>
      refine .inl ⟨fun k hk => ?_, _, referenceCell_of_bound ho hl op⟩
      cases ho.symm.trans hk
      exact ⟨a, hl⟩
  · have hnone : ∀ l, s.operand ≠ .symbol l := not_exists.mp ho
    exact .inl ⟨fun l hl => absurd hl (hnone l), h.exists_cellOf_of_no_symbol hnone sym⟩

theorem FillsCell.exists_cellOf_iff {s : Statement} (h : FillsCell s) {sym : SymbolTable} :
    (∃ w, cellOf sym s = .ok w) ↔ ∀ l, s.operand = .symbol l → ∃ a, sym.lookup l = some a := by
  rcases h.cellOf_cases sym with ⟨hbound, hw⟩ | ⟨l, ho, hl, herr⟩
  · exact iff_of_true hw hbound
  · exact iff_of_false (by simp [herr]) fun hbound => by simpa [hl] using hbound l ho

theorem FillsCell.error_of_cellOf {s : Statement} (h : FillsCell s) {sym : SymbolTable} {e : AsmError}
    (he : cellOf sym s = .error e) :
    ∃ l, s.operand = .symbol l ∧ sym.lookup l = none ∧ e = .undefinedSymbol l s.line := by
  rcases h.cellOf_cases sym with ⟨-, w, hw⟩ | ⟨l, ho, hl, herr⟩
  · cases hw.symm.trans he
  · cases herr.symm.trans he
    exact ⟨l, ho, hl, rfl⟩

theorem symbolsBound_cons_iff {sym : SymbolTable} {c : Statement × Addr} {placed : List (Statement × Addr)} :
    SymbolsBound sym (c :: placed) ↔
      (∀ l, c.1.operand = .symbol l → ∃ a, sym.lookup l = some a) ∧ SymbolsBound sym placed :=
  List.forall_mem_cons

/-- Pass 2 gives an image exactly where every symbol referred to is bound (50_assembler_backend R232). -/
theorem exists_pass2From_iff {sym : SymbolTable} {placed : List (Statement × Addr)}
    (hfill : ∀ c ∈ placed, FillsCell c.1) (img : Image) :
    (∃ out, pass2From sym img placed = .ok out) ↔ SymbolsBound sym placed := by
  induction placed generalizing img with
  | nil => simp [pass2From, SymbolsBound]
  | cons c placed ih =>
    obtain ⟨hc, hrest⟩ := List.forall_mem_cons.mp hfill
    rw [symbolsBound_cons_iff, ← hc.exists_cellOf_iff]
    constructor
    · rintro ⟨out, hout⟩
      obtain ⟨w, hw, hlater⟩ := pass2From_cons_eq_ok_iff.mp hout
      exact ⟨⟨w, hw⟩, (ih hrest _).mp ⟨out, hlater⟩⟩
    · rintro ⟨⟨w, hw⟩, hbound⟩
      obtain ⟨out, hlater⟩ := (ih hrest (img.set c.2.val w)).mpr hbound
      exact ⟨out, pass2From_cons_eq_ok_iff.mpr ⟨w, hw, hlater⟩⟩

/-- Pass 2 fails at the first statement that has no word, with that statement's diagnostic (50_assembler_backend R250). -/
theorem pass2From_error {sym : SymbolTable} {placed : List (Statement × Addr)} {img : Image} {e : AsmError}
    (h : pass2From sym img placed = .error e) :
    ∃ before after s a mid,
      placed = before ++ (s, a) :: after ∧ pass2From sym img before = .ok mid ∧ cellOf sym s = .error e := by
  induction placed generalizing img with
  | nil => cases h
  | cons c placed ih =>
    obtain ⟨s, a⟩ := c
    unfold pass2From at h
    split at h
    · next hs =>
      cases h
      exact ⟨[], placed, s, a, img, rfl, rfl, hs⟩
    · next w hw =>
      obtain ⟨before, after, t, b, mid, rfl, hmid, ht⟩ := ih h
      exact ⟨(s, a) :: before, after, t, b, mid, rfl, pass2From_cons_eq_ok_iff.mpr ⟨w, hw, hmid⟩, ht⟩

theorem pass1_placed_fillsCell {ss : List Statement} {st : AsmState} (hwf : ∀ s ∈ ss, s.wf = true)
    (h : pass1 ss = .ok st) : ∀ c ∈ st.placed, FillsCell c.1 := by
  intro c hc
  have hmem : c.1 ∈ occupying ss := pass1_placed_statements h ▸ List.mem_map_of_mem hc
  obtain ⟨hs, hm⟩ := List.mem_filter.mp hmem
  exact ⟨hwf _ hs, of_decide_eq_true hm⟩

theorem exists_literal_of_wf_org {s : Statement} (hs : s.wf = true) (hm : s.mnemonic = .org) :
    ∃ v, s.operand = .literal v := by
  obtain ⟨hfits, -⟩ := Statement.wf_iff.mp hs
  rw [hm] at hfits
  cases ho : s.operand with
  | literal v => exact ⟨v, rfl⟩
  | absent | symbol => rw [ho] at hfits; cases hfits

/-- A refused statement of the front-end is one of the two errors of pass 1 (50_assembler_backend R226, R227). -/
theorem RefusesStatement.error_of_wf {st : AsmState} {s : Statement} {e : AsmError} (h : RefusesStatement st s e)
    (hs : s.wf = true) :
    (∃ l, s.label = some l ∧ e = .duplicateSymbol l s.line) ∨ e = .addressOverflow s.line := by
  cases h with
  | orgOverflow | overflow => exact .inr rfl
  | orgMalformed hm ho =>
    obtain ⟨v, hv⟩ := exists_literal_of_wf_org hs hm
    exact absurd hv (ho v)
  | duplicate _ _ hl => exact .inl ⟨_, hl, rfl⟩

theorem backEnd_eq_ok_iff {ss : List Statement} {img : Image} :
    backEnd ss = .ok img ↔ ∃ st, pass1 ss = .ok st ∧ pass2 st = .ok img := by
  unfold backEnd
  cases pass1 ss <;> simp

/-- Settles O57: pass 1 fails at a statement it refuses, pass 2 at the first placed one without a word, and what is placed
fills a cell, so that only an unbound symbol can leave it without one. -/
theorem backEndRaisesThreeErrorKinds : Obligations.BackEndRaisesThreeErrorKinds := by
  refine fun ss hwf => ⟨fun e he => ?_, fun st e hst he => ?_, fun st hst hbound => ?_⟩
  · obtain ⟨before, s, after, u, rfl, -, hs⟩ := pass1From_eq_error_iff.mp he
    have hmem : s ∈ before ++ s :: after := by simp
    exact (hs.error_of_wf (hwf s hmem)).imp (fun hdup => ⟨s, hmem, hdup⟩) fun hover => ⟨s, hmem, hover⟩
  · obtain ⟨before, after, s, a, mid, hplaced, hmid, hs⟩ := pass2From_error he
    have hfill : ∀ c ∈ before ++ (s, a) :: after, FillsCell c.1 := hplaced ▸ pass1_placed_fillsCell hwf hst
    obtain ⟨hbefore, hrest⟩ := List.forall_mem_append.mp hfill
    obtain ⟨l, ho, hl, rfl⟩ := (hrest (s, a) List.mem_cons_self).error_of_cellOf hs
    exact ⟨before, after, s, a, l, hplaced, (exists_pass2From_iff hbefore _).mp ⟨mid, hmid⟩, ho, hl, rfl⟩
  · obtain ⟨img, himg⟩ := (exists_pass2From_iff (pass1_placed_fillsCell hwf hst) blankImage).mpr hbound
    exact ⟨img, himg, backEnd_eq_ok_iff.mpr ⟨st, hst, himg⟩⟩

theorem assemble_length {source : List Char} {img : Image} (h : assemble source = .ok img) : img.length = 100 := by
  unfold assemble at h
  split at h
  · cases h
  · obtain ⟨st, -, himg⟩ := backEnd_eq_ok_iff.mp h
    exact pass2_length himg

theorem mem_imageCells_range {img : Image} {n : Int} (h : n ∈ imageCells img) : 0 ≤ n ∧ n ≤ 999 := by
  obtain ⟨w, -, rfl⟩ := List.mem_map.mp h
  exact ⟨Int.natCast_nonneg _, Int.ofNat_le.mpr (Nat.le_of_lt_succ w.isLt)⟩

/-- Reading an image's integers as words gives the image back. -/
theorem map_ofNat_imageCells (img : Image) : (imageCells img).map (fun n => Word.ofNat n.toNat) = img := by
  simp [imageCells, Function.comp_def]

/-- Settles O53: an assembled image has the 100 words `load` asks for, and `load` places them cell for cell. -/
theorem assembledImageLoads : Obligations.AssembledImageLoads := by
  intro source img h
  have hlen : img.length = 100 := assemble_length h
  refine ⟨hlen, fun s => ⟨loaded img s, ?_, rfl, rfl, fun a => ?_⟩⟩
  · have hload := load_of_valid (image := imageCells img) (List.length_map _ |>.trans hlen)
      (fun _ => mem_imageCells_range) s
    rwa [map_ofNat_imageCells] at hload
  · rw [loaded_mem_read hlen s a, List.getElem?_eq_getElem]

end Sys2Proof.Machine
end

section
/-! A runtime fault is precise (O33). -/

namespace Sys2Proof.Machine

/-- An instruction that faults is not INP, so it does not wait. -/
theorem enabled_of_faultOf {s : State} {c : Cause} (hr : s.run = .ready) (h : faultOf (nextInstr s) = some c) :
    Enabled s := by
  refine ⟨hr, fun ⟨hinp, _⟩ => ?_⟩
  rw [nextInstr, hinp] at h
  cases h

/-- Where PC is as fetch left it, 99 further on mod 100 is the cell fetched from (60_exceptions R285). -/
theorem faultAddress_of_pc {s t : State} (h : t.pc = nextAddr s.pc) : faultAddress t = s.pc := by
  apply Fin.ext
  calc (faultAddress t).val = ((s.pc.val + 1) % 100 + 99) % 100 := by rw [faultAddress, h]; rfl
    _ = s.pc.val := by omega

/-- Settles O33: a Ready core on a faulting word does not wait for input, so its step raises the fault on the state fetch
left, and raising writes the run-state alone. -/
theorem faultsArePrecise : Obligations.FaultsArePrecise := by
  intro s c hr hc
  have he : Enabled s := enabled_of_faultOf hr hc
  have hstep : step s = .next (raise c (fetch s)) := step_eq_next_iff.mpr (.inr ⟨he, .faults hc⟩)
  exact ⟨_, hstep, stepResult_of_step hstep (.inl he), raise_run c _, Addr.val_ofNat _, rfl, rfl, rfl,
    faultAddress_of_pc rfl, rfl, .refl s, .refl s, rfl⟩

end Sys2Proof.Machine
end

section
/-! The host's operations and the invariant; images `load` refuses (O38, O46). -/

namespace Sys2Proof.Machine

/-- `load` starts the invariant afresh: its memory is placed over one with no cell listed, its flags are clear over an
accumulator of 0, and it is Ready (70_reset_and_hazards R320). -/
theorem inv_loaded (cells : List Word) (s : State) : (loaded cells s).Inv :=
  have hwf : (loaded cells s).mem.wf = true := Memory.wf_place rfl 0 cells
  have hcleared : FlagsCleared (loaded cells s) := ⟨rfl, rfl, rfl⟩
  ⟨hwf, .inr hcleared, stopExplained_of_ready rfl⟩

/-- Settles O38: `load` by `inv_loaded`; a host write changes the memory alone, and in canonical form; offered input is
nothing the invariant speaks of. -/
theorem invariantKeptByHost : Obligations.InvariantKeptByHost := by
  refine ⟨fun image s t h => ?_, fun n v s t hs h => ?_, fun vs s hs => hs⟩
  · obtain ⟨-, rfl⟩ := load_ok h
    exact inv_loaded _ s
  · obtain ⟨hwf, hflags, hstop⟩ := hs
    obtain ⟨-, -, rfl⟩ := hostWrite_ok h
    exact ⟨Memory.wf_write hwf _ _, hflags, hstop⟩

/-- `load` refuses every image that is not valid (70_reset_and_hazards R321). -/
theorem load_of_not_valid {image : List Int} (h : ¬(image.length = 100 ∧ ∀ n ∈ image, 0 ≤ n ∧ n ≤ 999)) (s : State) :
    load image s = .error .loadRejected :=
  if_neg (mt (validImage_iff image).mp h)

/-- Settles O46: the code by the table of codes, the refusal by `load_of_not_valid`. -/
theorem loadRefusesMalformedImages : Obligations.LoadRefusesMalformedImages :=
  ⟨rfl, fun _ s h => load_of_not_valid h s⟩

end Sys2Proof.Machine
end
